-- ==== Sys2Proof/Word.lean ====
section
/-! DEFINITION. The machine's word types (00_scope.md R6, R7, R8): every register and field is an unsigned
bit vector of fixed width; a shift of a w-bit value keeps the low w bits. -/

namespace Sys2Proof

/-- One byte of BUF or of a byte string (R9, R31). -/
abbrev Byte := BitVec 8

/-- A command word (R46), and the width of STATUS and FCMD (R22, R23). -/
abbrev Word32 := BitVec 32

/-- A scalar register (R16), and each of the two words of a field element (R62). -/
abbrev Word64 := BitVec 64

/-- A 16-byte string, the contents of a vector register (R15), held as the 128-bit number whose most
significant byte is byte 0 of the string: R62's integer W = low * 2^64 + high. -/
abbrev Block := BitVec 128

end Sys2Proof
end

