-- ==== Sys2Proof/Syntax.lean ====
section
/-! DEFINITION. The commands: one constructor per row of spec/opcode_table.json (30_encoding.md R49, R52), each
field an operand of R49 in the order of the word's fields. -/

namespace Sys2Proof

/-- A vector register number: V0..V7 (R15, R50). Every value is legal in every `v` operand. -/
abbrev VReg := Fin 8

/-- A scalar register number: R0..R7 (R16, R50). Every value is legal in every `r` operand. -/
abbrev SReg := Fin 8

/-- The immediate IDX, a 4-bit unsigned number (R51), and any other index of TAB. -/
abbrev TabIndex := BitVec 4

/-- The block's commands. -/
inductive Instr where
  /-- NOP (R93). -/
  | nop
  /-- GFADD vd, va, vb (R72). -/
  | gfadd (vd va vb : VReg)
  /-- GFDBL vd, va (R73). -/
  | gfdbl (vd va : VReg)
  /-- GFMULH vd, va (R75). -/
  | gfmulh (vd va : VReg)
  /-- BUILDTAB va (R67). -/
  | buildtab (va : VReg)
  /-- RDTAB vd, idx (R74). -/
  | rdtab (vd : VReg) (idx : TabIndex)
  /-- ABSORB vd, [rs], rn (R76). -/
  | absorb (vd : VReg) (rs rn : SReg)
  /-- CTRINIT vd, va, rn (R77). -/
  | ctrinit (vd va : VReg) (rn : SReg)
  /-- INC32 vd, va (R79). -/
  | inc32 (vd va : VReg)
  /-- XORM [rd], [ra], [rb], rn (R82). -/
  | xorm (rd ra rb rn : SReg)
  /-- OVLP rd, ra, rla, rb, rlb (R87). -/
  | ovlp (rd ra rla rb rlb : SReg)
  /-- LDV vd, [rs] (R91). -/
  | ldv (vd : VReg) (rs : SReg)
  /-- STV va, [rs] (R92). -/
  | stv (va : VReg) (rs : SReg)
  /-- REV4 rd, rs (R90). -/
  | rev4 (rd rs : SReg)
deriving DecidableEq, Repr

end Sys2Proof
end

