-- ==== Sys2Proof/WellFormed.lean ====
section
/-! DEFINITION. Well-formed commands, on their written form: a mnemonic and its operands, each of the kind and
in the range that 30_encoding.md R49, R50, R51 and R59 give it. A value of `Instr` cannot be ill-formed (its
fields have the operands' own types); the written form, whose numbers are plain, can. -/

namespace Sys2Proof

/-- A written operand (R59). -/
inductive Operand where
  /-- `v<n>`, a vector register. -/
  | v (n : Nat)
  /-- `r<n>`, a scalar register. -/
  | r (n : Nat)
  /-- `[r<n>]`, a scalar register used as a BUF address. -/
  | at (n : Nat)
  /-- The table index of RDTAB. -/
  | idx (n : Nat)
deriving DecidableEq, Repr

/-- The kind an operand place asks for (R59). -/
inductive OperandKind where
  | v | r | at | idx
deriving DecidableEq, Repr

/-- One written command: its mnemonic in capitals and its operands, first to last. -/
structure Line where
  mnemonic : String
  operands : List Operand
deriving DecidableEq, Repr

/-- The kind of an operand. -/
def Operand.kind : Operand → OperandKind
  | .v _ => .v
  | .r _ => .r
  | .at _ => .at
  | .idx _ => .idx

/-- A register number is 0..7 (R50), a table index 0..15 (R51). -/
def Operand.inRange : Operand → Bool
  | .v n => decide (n < 8)
  | .r n => decide (n < 8)
  | .at n => decide (n < 8)
  | .idx n => decide (n < 16)

/-- The operand kinds of each mnemonic, in the order of R59; the last three are the pseudo-instructions
(R60). -/
def operandKinds : List (String × List OperandKind) :=
  [("NOP", []), ("GFADD", [.v, .v, .v]), ("GFDBL", [.v, .v]), ("GFMULH", [.v, .v]), ("BUILDTAB", [.v]),
   ("RDTAB", [.v, .idx]), ("ABSORB", [.v, .at, .r]), ("CTRINIT", [.v, .v, .r]), ("INC32", [.v, .v]),
   ("XORM", [.at, .at, .at, .r]), ("OVLP", [.r, .r, .r, .r, .r]), ("LDV", [.v, .at]), ("STV", [.v, .at]),
   ("REV4", [.r, .r]), ("CLRV", [.v]), ("MOVV", [.v, .v]), ("CTRSTART", [.v, .v, .r])]

/-- The mnemonic is one of the block's or a pseudo-instruction's. -/
def Line.mnemonicKnown (l : Line) : Bool := (operandKinds.lookup l.mnemonic).isSome

/-- The operands are as many as, and of the kinds that, the mnemonic asks for. -/
def Line.kindsMatch (l : Line) : Bool := operandKinds.lookup l.mnemonic == some (l.operands.map Operand.kind)

/-- Every operand's number is in its range. -/
def Line.operandsInRange (l : Line) : Bool := l.operands.all Operand.inRange

/-- A written command that stands for one or more commands of the block. -/
def Line.wellFormed (l : Line) : Bool := l.mnemonicKnown && l.kindsMatch && l.operandsInRange

/-- How a command is written (R59): its mnemonic and its operands in the field order of R49. -/
def Instr.toLine : Instr → Line
  | .nop => ⟨"NOP", []⟩
  | .gfadd vd va vb => ⟨"GFADD", [.v vd, .v va, .v vb]⟩
  | .gfdbl vd va => ⟨"GFDBL", [.v vd, .v va]⟩
  | .gfmulh vd va => ⟨"GFMULH", [.v vd, .v va]⟩
  | .buildtab va => ⟨"BUILDTAB", [.v va]⟩
  | .rdtab vd idx => ⟨"RDTAB", [.v vd, .idx idx.toNat]⟩
  | .absorb vd rs rn => ⟨"ABSORB", [.v vd, .at rs, .r rn]⟩
  | .ctrinit vd va rn => ⟨"CTRINIT", [.v vd, .v va, .r rn]⟩
  | .inc32 vd va => ⟨"INC32", [.v vd, .v va]⟩
  | .xorm rd ra rb rn => ⟨"XORM", [.at rd, .at ra, .at rb, .r rn]⟩
  | .ovlp rd ra rla rb rlb => ⟨"OVLP", [.r rd, .r ra, .r rla, .r rb, .r rlb]⟩
  | .ldv vd rs => ⟨"LDV", [.v vd, .at rs]⟩
  | .stv va rs => ⟨"STV", [.v va, .at rs]⟩
  | .rev4 rd rs => ⟨"REV4", [.r rd, .r rs]⟩

/-- A command is well-formed when its written form is. -/
def Instr.wellFormed (i : Instr) : Bool := i.toLine.wellFormed

end Sys2Proof
end

