-- ==== Sys2Proof/Decode.lean ====
section
/-! DEFINITION. The decoder of 30_encoding.md (R46-R58), total on 32-bit words and rejecting by name, and the
encoder written from the same tables. -/

namespace Sys2Proof

/-- The formats of R48. -/
inductive Format where
  | n | r1 | r2 | r3 | r4 | r5 | t
deriving DecidableEq, Repr

/-- Why a word is no command. Both are E_ILLEGAL (R53). -/
inductive DecodeError where
  /-- OP is an unassigned opcode (R54). -/
  | unassignedOp
  /-- OP is assigned and a reserved bit of its format is 1 (R55). -/
  | reservedBit
deriving DecidableEq, Repr

/-- The bits of a word that a format does not use (R48's reserved-bit mask). -/
def Format.reservedMask : Format → Word32
  | .n => 0x03FFFFFF
  | .r1 => 0x007FFFFF
  | .r2 => 0x000FFFFF
  | .r3 => 0x0001FFFF
  | .r4 => 0x00003FFF
  | .r5 => 0x000007FF
  | .t => 0x0007FFFF

/-- OP, bits 31:26 (R47). -/
def fieldOP (w : Word32) : Nat := (w.extractLsb' 26 6).toNat

/-- F1, bits 25:23 (R47). -/
def fieldF1 (w : Word32) : Fin 8 := ⟨(w.extractLsb' 23 3).toNat, (w.extractLsb' 23 3).isLt⟩

/-- F2, bits 22:20 (R47). -/
def fieldF2 (w : Word32) : Fin 8 := ⟨(w.extractLsb' 20 3).toNat, (w.extractLsb' 20 3).isLt⟩

/-- F3, bits 19:17 (R47). -/
def fieldF3 (w : Word32) : Fin 8 := ⟨(w.extractLsb' 17 3).toNat, (w.extractLsb' 17 3).isLt⟩

/-- F4, bits 16:14 (R47). -/
def fieldF4 (w : Word32) : Fin 8 := ⟨(w.extractLsb' 14 3).toNat, (w.extractLsb' 14 3).isLt⟩

/-- F5, bits 13:11 (R47). -/
def fieldF5 (w : Word32) : Fin 8 := ⟨(w.extractLsb' 11 3).toNat, (w.extractLsb' 11 3).isLt⟩

/-- IDX, bits 22:19 (R47, R51). -/
def fieldIDX (w : Word32) : TabIndex := w.extractLsb' 19 4

/-- The format of an opcode and the command it makes of a word's fields (R49, R52), reserved bits not looked
at. -/
def commandOf (op : Nat) (w : Word32) : Option (Format × Instr) :=
  match op with
  | 0x00 => some (.n, .nop)
  | 0x01 => some (.r3, .gfadd (fieldF1 w) (fieldF2 w) (fieldF3 w))
  | 0x02 => some (.r2, .gfdbl (fieldF1 w) (fieldF2 w))
  | 0x03 => some (.r2, .gfmulh (fieldF1 w) (fieldF2 w))
  | 0x04 => some (.r1, .buildtab (fieldF1 w))
  | 0x05 => some (.t, .rdtab (fieldF1 w) (fieldIDX w))
  | 0x06 => some (.r3, .absorb (fieldF1 w) (fieldF2 w) (fieldF3 w))
  | 0x08 => some (.r3, .ctrinit (fieldF1 w) (fieldF2 w) (fieldF3 w))
  | 0x09 => some (.r2, .inc32 (fieldF1 w) (fieldF2 w))
  | 0x0C => some (.r4, .xorm (fieldF1 w) (fieldF2 w) (fieldF3 w) (fieldF4 w))
  | 0x10 => some (.r5, .ovlp (fieldF1 w) (fieldF2 w) (fieldF3 w) (fieldF4 w) (fieldF5 w))
  | 0x14 => some (.r2, .ldv (fieldF1 w) (fieldF2 w))
  | 0x15 => some (.r2, .stv (fieldF1 w) (fieldF2 w))
  | 0x18 => some (.r2, .rev4 (fieldF1 w) (fieldF2 w))
  | _ => none

/-- The format and the command of a word, by its OP (R52). -/
def opcodeMap (w : Word32) : Option (Format × Instr) := commandOf (fieldOP w) w

/-- The whole decoder (R53): OP first, then the reserved bits of its format. -/
def decode (w : Word32) : Except DecodeError Instr :=
  match opcodeMap w with
  | none => .error .unassignedOp
  | some (fmt, i) => if w &&& fmt.reservedMask = 0 then .ok i else .error .reservedBit

/-- A word with the given fields and every other bit 0 (R47). -/
def assembleFields (op f1 f2 f3 f4 f5 : Nat) : Word32 :=
  BitVec.ofNat 32 (op * 2 ^ 26 + f1 * 2 ^ 23 + f2 * 2 ^ 20 + f3 * 2 ^ 17 + f4 * 2 ^ 14 + f5 * 2 ^ 11)

/-- A word of format T: IDX stands at bits 22:19 (R47, R48). -/
def assembleT (op f1 idx : Nat) : Word32 := BitVec.ofNat 32 (op * 2 ^ 26 + f1 * 2 ^ 23 + idx * 2 ^ 19)

/-- The word of a command (R47-R49), every reserved bit 0. -/
def encode : Instr → Word32
  | .nop => assembleFields 0x00 0 0 0 0 0
  | .gfadd vd va vb => assembleFields 0x01 vd va vb 0 0
  | .gfdbl vd va => assembleFields 0x02 vd va 0 0 0
  | .gfmulh vd va => assembleFields 0x03 vd va 0 0 0
  | .buildtab va => assembleFields 0x04 va 0 0 0 0
  | .rdtab vd idx => assembleT 0x05 vd idx.toNat
  | .absorb vd rs rn => assembleFields 0x06 vd rs rn 0 0
  | .ctrinit vd va rn => assembleFields 0x08 vd va rn 0 0
  | .inc32 vd va => assembleFields 0x09 vd va 0 0 0
  | .xorm rd ra rb rn => assembleFields 0x0C rd ra rb rn 0
  | .ovlp rd ra rla rb rlb => assembleFields 0x10 rd ra rla rb rlb
  | .ldv vd rs => assembleFields 0x14 vd rs 0 0 0
  | .stv va rs => assembleFields 0x15 va rs 0 0 0
  | .rev4 rd rs => assembleFields 0x18 rd rs 0 0 0

/-- A row of the machine-readable opcode table: the words it selects are those with `w &&& mask = pattern`
(R53, R48's match mask). -/
structure OpcodeRow where
  mnemonic : String
  pattern : Word32
  mask : Word32
deriving DecidableEq, Repr

/-- spec/opcode_table.json, row for row. The decoder does not read it; it is what the decoder is held against
(R53). -/
def opcodeTable : List OpcodeRow :=
  [⟨"NOP", 0x00000000, 0xFFFFFFFF⟩, ⟨"GFADD", 0x04000000, 0xFC01FFFF⟩, ⟨"GFDBL", 0x08000000, 0xFC0FFFFF⟩,
   ⟨"GFMULH", 0x0C000000, 0xFC0FFFFF⟩, ⟨"BUILDTAB", 0x10000000, 0xFC7FFFFF⟩, ⟨"RDTAB", 0x14000000, 0xFC07FFFF⟩,
   ⟨"ABSORB", 0x18000000, 0xFC01FFFF⟩, ⟨"CTRINIT", 0x20000000, 0xFC01FFFF⟩, ⟨"INC32", 0x24000000, 0xFC0FFFFF⟩,
   ⟨"XORM", 0x30000000, 0xFC003FFF⟩, ⟨"OVLP", 0x40000000, 0xFC0007FF⟩, ⟨"LDV", 0x50000000, 0xFC0FFFFF⟩,
   ⟨"STV", 0x54000000, 0xFC0FFFFF⟩, ⟨"REV4", 0x60000000, 0xFC0FFFFF⟩]

/-- The command that the decoder reads from an instruction of `nbits` bits `w`. Every command is one 32-bit
word, delivered whole (R46), so the word is the number and there is no byte order to settle. -/
def decodeTableWord (nbits w : Nat) : Option Instr :=
  match decode (BitVec.ofNat 32 (w % 2 ^ nbits)) with
  | .ok i => some i
  | .error _ => none

end Sys2Proof
end

