-- ==== Sys2Proof/Config.lean ====
section
/-! DEFINITION. What an implementation fixes (BUF_SIZE's legal range, 00_scope.md R7) and the one free value
of the spec (BUF after reset, 10_state.md R28, 93_implementation_defined.md U1). -/

namespace Sys2Proof.Config

/-- FREE VALUE. The byte that the free draw number `draw` gives BUF address `a`: what a byte of BUF holds that
nothing has written since the reset that made that draw (R28, U1: "a free draw per byte at each reset").
It has no body, so no proof can rest on a value of it. Entry 5. -/
opaque bufAtReset (draw a : Nat) : Byte

/-- The least BUF_SIZE (R7, U4). -/
def minBufSize : Nat := 16

/-- The greatest BUF_SIZE (R7, U4). -/
def maxBufSize : Nat := 2 ^ 64

/-- DESIGN CHOICE (entry 4): the BUF_SIZE of `State.reset`, the default that R7 suggests and calls not
normative. A machine of any other legal size is `State.resetWith`. -/
def defaultBufSize : Nat := 65536

/-- The constraint on the parameter: 16 <= BUF_SIZE <= 2^64 (R7, R31, U4). -/
def legalBufSize (n : Nat) : Bool := decide (minBufSize ≤ n ∧ n ≤ maxBufSize)

end Sys2Proof.Config
end

