-- ==== Sys2Proof/Machine/State.lean ====
section
/-! DEFINITION. The block's architectural state (10_state.md), the host port's transactions (60_exceptions.md
R106), the reasons a step can stop, and the state after reset (R28). -/

namespace Sys2Proof.Machine

/-- An element of GF(2^128): two 64-bit words (R62). -/
structure Elem where
  low : Word64
  high : Word64
deriving DecidableEq, Repr

/-- The bytes of BUF that something has written since the last reset, as (address, byte) pairs in rising order
of address. An address that is not listed has NO VALUE here (`Memory.byte?` answers none); the operation that
reads BUF gives it the free draw of 93 U1. Entries 5, 6. -/
abbrev Memory := List Host.Cell

/-- The host-port transactions (R106), the host's side of the machine. -/
inductive HostTxn where
  /-- HWR_R: R[i] <- v. -/
  | wrR (i : SReg) (v : Word64)
  /-- HRD_R: returns R[i]. -/
  | rdR (i : SReg)
  /-- HWR_V: V[i] <- the 16 bytes, in index order 0..15. -/
  | wrV (i : VReg) (bytes : Vector Byte 16)
  /-- HRD_V: returns V[i] as 16 bytes in index order. -/
  | rdV (i : VReg)
  /-- HWR_BUF: BUF[a] <- b. -/
  | wrBuf (a : Nat) (b : Byte)
  /-- HRD_BUF: returns BUF[a]. -/
  | rdBuf (a : Nat)
  /-- HRD_STATUS: returns STATUS. -/
  | rdStatus
  /-- HRD_FCMD: returns FCMD. -/
  | rdFcmd
  /-- HISSUE: the block executes command w. -/
  | issue (w : Word32)
  /-- HRESET. -/
  | reset
deriving DecidableEq, Repr

/-- A value that a host read transaction returns (R106, R113). -/
inductive HostValue where
  /-- HRD_R's 64-bit value. -/
  | scalar (v : Word64)
  /-- HRD_V's 16 bytes in index order. -/
  | vector (bytes : List Byte)
  /-- HRD_BUF's byte. -/
  | byte (b : Byte)
  /-- HRD_STATUS's 32-bit value. -/
  | status (w : Word32)
  /-- HRD_FCMD's 32-bit value. -/
  | fcmd (w : Word32)
deriving DecidableEq, Repr

/-- The faults a command can raise (R94). Raising one is a NEXT state of the machine (R95). -/
inductive FaultCode where
  /-- E_ILLEGAL: unassigned OP, or a reserved bit set. -/
  | illegal
  /-- E_NOTAB: GFMULH or ABSORB with TV = 0. -/
  | notab
  /-- E_TABLOCK: BUILDTAB with TV = 1. -/
  | tablock
  /-- E_NONCE: CTRINIT with a nonce length other than 12. -/
  | nonce
  /-- E_RANGE: REV4 input above 15, or an OVLP range past 2^64. -/
  | range
  /-- E_BOUNDS: a BUF access with a + n > BUF_SIZE. -/
  | bounds
  /-- E_OVERLAP: XORM's destination inexactly overlaps an input range. -/
  | overlap
deriving DecidableEq, Repr

/-- The whole state. The first ten fields and `buf` are the spec's; `bufSize` is its parameter; `draw`,
`pending` and `observed` are the model's own (INVENTORY.md, '## State'). STATUS is not stored whole: its bits
are `fault`, `tv`, `busy` and `code`, and `State.statusWord` reads the register (R22). -/
structure State where
  /-- V0..V7 (R15). -/
  v : Vector Block 8
  /-- R0..R7 (R16). -/
  r : Vector Word64 8
  /-- TAB[0..15] (R18). -/
  tab : Vector Elem 16
  /-- TV, which STATUS.TV copies (R19, R22). -/
  tv : Bool
  /-- STATUS.FAULT (R22). -/
  fault : Bool
  /-- STATUS.BUSY (R22). -/
  busy : Bool
  /-- STATUS.CODE (R22). -/
  code : BitVec 8
  /-- FCMD (R23). -/
  fcmd : Word32
  /-- BUF: the bytes written since the last reset (R25). -/
  buf : Memory
  /-- BUF_SIZE, the open parameter (R7); no step changes it. Entry 4. -/
  bufSize : Nat
  /-- Which free draw BUF's unwritten bytes read (U1); every reset advances it. Entry 5. -/
  draw : Nat
  /-- The host's coming transactions, the next one first (R41). Entry 2. -/
  pending : List HostTxn
  /-- What the host's read transactions have returned, the first one first (R113). Entry 2. -/
  observed : List HostValue
deriving DecidableEq, Repr

/-- Why the machine could stop with a fault: it never does. Every fault of the spec is a next state (R95), and
the machine stops nowhere else, so the type has no member. Safe. Entry 9. -/
inductive Fault where
deriving DecidableEq, Repr

/-- Why a step is refused. -/
inductive Refusal where
  /-- Raised by `exec` alone, for an instruction that has no meaning yet: none. Safe. -/
  | notModelled (mnemonic : String)
  /-- Raised by HWR_BUF and HRD_BUF at an address at or above BUF_SIZE: "A model refuses it" (R106, U2).
  Safe: no claim is made about such a run. -/
  | hostBufOutOfRange
  /-- Raised by a host transaction other than HRD_STATUS and HRESET while STATUS.BUSY = 1 (R106, R117, U3).
  Safe: no claim is made about such a run. -/
  | hostWhileBusy
deriving DecidableEq, Repr

/-- The machine right after a reset (R28), of a given BUF_SIZE, its unwritten BUF bytes read from a given free
draw, and no host transaction to come. -/
def State.resetWith (bufSize draw : Nat) : State :=
  { v := Vector.replicate 8 0
    r := Vector.replicate 8 0
    tab := Vector.replicate 16 ⟨0, 0⟩
    tv := false
    fault := false
    busy := false
    code := 0
    fcmd := 0
    buf := []
    bufSize := bufSize
    draw := draw
    pending := []
    observed := [] }

/-- The machine right after power-on (R28, R110). Its BUF_SIZE is the suggested default (entry 4). -/
def State.reset : State := State.resetWith Config.defaultBufSize 0

end Sys2Proof.Machine
end

