-- ==== Sys2Proof/Machine/Bytes.lean ====
section
/-! DEFINITION. Byte strings and the two views of a vector register (00_scope.md R9, R10; 10_state.md R15;
20_memory.md R34; 40_gf128.md R63). -/

namespace Sys2Proof.Machine

/-- Byte k of a 16-byte string, k in 0..15; byte 0 is the first (R9). -/
def Block.byte (s : Block) (k : Nat) : Byte := s.extractLsb' (8 * (15 - k)) 8

/-- The byte view: the 16 bytes in index order (R15). -/
def Block.toBytes (s : Block) : List Byte := (List.range 16).map (Block.byte s)

/-- The 16-byte string of a list of 16 bytes, the first byte first. -/
def Block.ofBytes (bs : List Byte) : Block := bs.foldl (fun acc b => acc <<< 8 ||| b.setWidth 128) 0

/-- BE(s): the number whose big-endian encoding is the byte string s (R9's BE64 and BE32). -/
def beNat (bs : List Byte) : Nat := bs.foldl (fun acc b => 256 * acc + b.toNat) 0

/-- elem(s): the element view of a 16-byte string, `low` from bytes 0..7, `high` from bytes 8..15, each
big-endian (R63). -/
def elem (s : Block) : Elem := ⟨s.extractLsb' 64 64, s.extractLsb' 0 64⟩

/-- bytes(e): the 16-byte string be64(e.low) ++ be64(e.high) (R63). -/
def bytes (e : Elem) : Block := e.low ++ e.high

end Sys2Proof.Machine
end

