-- ==== Sys2Proof/Machine/Ops.lean ====
section
/-! DEFINITION. The named operations over the registers, the product table and BUF (00_scope.md R10), the
bounds check (20_memory.md R36), raising a fault (60_exceptions.md R95) and, beside it, the one thing that
undoes a fault: reset (70_reset_and_hazards.md R110). -/

namespace Sys2Proof.Machine

/-- V[i] (R10). -/
def State.readV (s : State) (i : VReg) : Block := s.v[i]

/-- V[i] <- b (R10). No vector register is hardwired (R15). -/
def State.writeV (s : State) (i : VReg) (b : Block) : State := { s with v := s.v.set i b }

/-- R[i] (R10). -/
def State.readR (s : State) (i : SReg) : Word64 := s.r[i]

/-- R[i] <- x (R10). No scalar register is hardwired (R16). -/
def State.writeR (s : State) (i : SReg) (x : Word64) : State := { s with r := s.r.set i x }

/-- Entry k of a 16-entry table. -/
def tableEntry (t : Vector Elem 16) (k : TabIndex) : Elem := t[k.toNat]'k.isLt

/-- TAB[k] (R10). -/
def State.readTab (s : State) (k : TabIndex) : Elem := tableEntry s.tab k

/-- TAB[k] <- T[k] for k in 0..15, and TV <- 1: BUILDTAB's two writes, which nothing else makes (R18, R19). -/
def State.installTable (s : State) (t : Vector Elem 16) : State := { s with tab := t, tv := true }

/-- The byte written at an address since the last reset, if any. -/
def Memory.byte? : Memory → Nat → Option Byte
  | [], _ => none
  | (k, b) :: rest, a => if k = a then some b else Memory.byte? rest a

/-- Write one byte, keeping the addresses rising. -/
def Memory.put : Memory → Nat → Byte → Memory
  | [], a, b => [(a, b)]
  | (k, x) :: rest, a, b =>
    if a < k then (a, b) :: (k, x) :: rest
    else if k = a then (a, b) :: rest
    else (k, x) :: Memory.put rest a b

/-- Write a byte string at rising addresses from a. -/
def Memory.putAll (m : Memory) (a : Nat) : List Byte → Memory
  | [] => m
  | b :: rest => Memory.putAll (Memory.put m a b) (a + 1) rest

/-- The canonical form: addresses strictly rising. An unlisted address has no value, so no entry can equal
what an unlisted address reads as. -/
abbrev Memory.wf (m : Memory) : Prop := m.Pairwise (fun c d => c.1 < d.1)

/-- BUF[a]: the byte last written, and the free draw where nothing has written since reset (R28, R45, U1). -/
def State.readByte (s : State) (a : Nat) : Byte := (Memory.byte? s.buf a).getD (Config.bufAtReset s.draw a)

/-- BUF[a] <- b. -/
def State.writeByte (s : State) (a : Nat) (b : Byte) : State := { s with buf := Memory.put s.buf a b }

/-- The n bytes BUF[a] .. BUF[a+n-1], byte k of the string at address a + k (R10's MemRead after its check;
R33). -/
def State.memRead (s : State) (a n : Nat) : List Byte := (List.range n).map fun k => s.readByte (a + k)

/-- BUF[a+k] <- byte k of the string (R10's MemWrite after its check; R33). -/
def State.memWrite (s : State) (a : Nat) (bs : List Byte) : State := { s with buf := Memory.putAll s.buf a bs }

/-- admitted(a, n): the access of n bytes at a lies in BUF, the sum over unbounded integers (R36). -/
def State.admitted (s : State) (a n : Nat) : Bool := decide (a + n ≤ s.bufSize)

/-- The value STATUS.CODE takes (R94). -/
def FaultCode.number : FaultCode → BitVec 8
  | .illegal => 1
  | .notab => 2
  | .tablock => 3
  | .nonce => 4
  | .range => 5
  | .bounds => 6
  | .overlap => 7

/-- FAULT ENTRY (R95), the block's whole exception mechanism: STATUS.FAULT <- 1, STATUS.CODE <- the code,
FCMD <- the command word, and nothing else. There is no handler to enter and no return (R96, R102). -/
def raiseFault (c : FaultCode) (w : Word32) (s : State) : State :=
  { s with fault := true, code := c.number, fcmd := w }

/-- `raise Fault(code)` of a decoded command (R10, R95): the next state is the fault entry. The command word
is the one word that decodes to the command. Entry 7. -/
def raise (c : FaultCode) (i : Instr) (s : State) : Host.Outcome State Fault Refusal :=
  .next (raiseFault c (encode i) s)

/-- Reset (R110): every piece of the block's state takes its value of R28, whatever the block is doing. BUF's
bytes are drawn anew (U1). BUF_SIZE is a parameter, and the host's own future and its observation are not the
block's state: all three stay. Entry 3. -/
def State.hostReset (s : State) : State :=
  { State.resetWith s.bufSize (s.draw + 1) with pending := s.pending, observed := s.observed }

end Sys2Proof.Machine
end

