-- ==== Sys2Proof/Machine/Operands.lean ====
section
/-! DEFINITION. The operand forms (30_encoding.md R49-R51): a vector register in its byte view or its element
view, a scalar register as an unsigned number (an address, a length, a value). IDX is an operand as it stands.
There is no addressing mode but the register itself, with no offset and no update (20_memory.md R31, R40). -/

namespace Sys2Proof.Machine

/-- The element view elem(V[i]) (R15, R63). -/
def State.readElem (s : State) (i : VReg) : Elem := elem (s.readV i)

/-- V[i] <- bytes(e) (R15, R63). -/
def State.writeElem (s : State) (i : VReg) (e : Elem) : State := s.writeV i (bytes e)

/-- R[i] as an unsigned number: a BUF address, a length, the nonce length, or REV4's input (R16, R31). -/
def State.number (s : State) (i : SReg) : Nat := (s.readR i).toNat

/-- R[i] <- zext_64(x) for x < 2^64 (R10). -/
def State.writeNumber (s : State) (i : SReg) (x : Nat) : State := s.writeR i (BitVec.ofNat 64 x)

end Sys2Proof.Machine
end

