-- ==== Sys2Proof/Machine/Counter.lean ====
section
/-! DEFINITION. The counter unit (41_counter.md): CTRINIT and INC32. -/

namespace Sys2Proof.Machine

/-- J0 of the nonce in bytes 0..11 of a block: the nonce, then 00 00 00 01 (R77). -/
def initialCounter (s : Block) : Block := s.extractLsb' 32 96 ++ 1#32

/-- inc32(s): bytes 12..15, read big-endian, plus 1 mod 2^32; bytes 0..11 as they are (R78). -/
def inc32 (s : Block) : Block := s.extractLsb' 32 96 ++ (s.extractLsb' 0 32 + 1#32)

/-- CTRINIT (R77): the whole 64-bit value of R[rn] is compared with 12. -/
def execCtrinit (vd va : VReg) (rn : SReg) (s : State) : Host.Outcome State Fault Refusal :=
  if s.number rn = 12 then .next (s.writeV vd (initialCounter (s.readV va)))
  else raise .nonce (.ctrinit vd va rn) s

/-- INC32 (R79): wrap-around sets no flag and raises no fault. -/
def execInc32 (vd va : VReg) (s : State) : Host.Outcome State Fault Refusal :=
  .next (s.writeV vd (inc32 (s.readV va)))

end Sys2Proof.Machine
end

