-- ==== Sys2Proof/Machine/Gf128.lean ====
section
/-! DEFINITION. The GF(2^128) unit (40_gf128.md): the field functions of R64-R71 and the six commands that
expose them (R67, R72-R76). -/

namespace Sys2Proof.Machine

/-- rev4(i): the 4 bits of i in reverse order (44_utility.md R89). -/
def rev4 (i : BitVec 4) : BitVec 4 :=
  (i &&& 1) <<< 3 ||| ((i >>> 1) &&& 1) <<< 2 ||| ((i >>> 2) &&& 1) <<< 1 ||| ((i >>> 3) &&& 1)

/-- The zero element. -/
def gfZero : Elem := ⟨0, 0⟩

/-- add(x, y) (R65). -/
def gfAdd (x y : Elem) : Elem := ⟨x.low ^^^ y.low, x.high ^^^ y.high⟩

/-- double(x): x times the polynomial x (R64). -/
def gfDouble (x : Elem) : Elem :=
  let high' := x.high >>> 1 ||| x.low <<< 63
  let low' := x.low >>> 1
  if x.high &&& 1 = 1 then ⟨low' ^^^ 0xe100000000000000, high'⟩ else ⟨low', high'⟩

/-- T with entry k replaced. -/
def setEntry (t : Vector Elem 16) (k : TabIndex) (e : Elem) : Vector Elem 16 := t.set k.toNat e k.isLt

/-- One turn of the loop of R66, for an even i. -/
def tableStep (h : Elem) (t : Vector Elem 16) (i : Nat) : Vector Elem 16 :=
  let t1 := setEntry t (rev4 (BitVec.ofNat 4 i)) (gfDouble (tableEntry t (rev4 (BitVec.ofNat 4 (i / 2)))))
  setEntry t1 (rev4 (BitVec.ofNat 4 (i + 1))) (gfAdd (tableEntry t1 (rev4 (BitVec.ofNat 4 i))) h)

/-- buildProductTable(H) (R66). -/
def buildProductTable (h : Elem) : Vector Elem 16 :=
  [2, 4, 6, 8, 10, 12, 14].foldl (tableStep h) (setEntry (Vector.replicate 16 gfZero) (rev4 1) h)

/-- RED: the fixed 16-entry reduction table (R68). A constant, not state (R21). -/
def redTable : Vector (BitVec 16) 16 :=
  #v[0x0000, 0x1c20, 0x3840, 0x2460, 0x7080, 0x6ca0, 0x48c0, 0x54e0,
     0xe100, 0xfd20, 0xd940, 0xc560, 0x9180, 0x8da0, 0xa9c0, 0xb5e0]

/-- RED[m] (R68). -/
def red (m : BitVec 4) : BitVec 16 := redTable[m.toNat]'m.isLt

/-- z times x^4: the 4-bit right shift of the element, the four coefficients c_124..c_127 that leave it
reduced through RED (R69; the index is the low 4 bits of `high`, 90_conflicts.md C2). -/
def gfShift4 (z : Elem) : Elem :=
  { low := z.low >>> 4 ^^^ (red (z.high.extractLsb' 0 4)).setWidth 64 <<< 48
    high := z.high >>> 4 ||| z.low <<< 60 }

/-- One turn of R69's inner loop: nibble j of `word` is its bits 4j+3..4j (90_conflicts.md C3). -/
def mulStep (t : Vector Elem 16) (word : Word64) (z : Elem) (j : Nat) : Elem :=
  gfAdd (gfShift4 z) (tableEntry t (word.extractLsb' (4 * j) 4))

/-- R69's inner loop: the 16 nibbles of one word. -/
def mulWord (t : Vector Elem 16) (word : Word64) (z : Elem) : Elem := (List.range 16).foldl (mulStep t word) z

/-- mulH(y, T): the high word first, then the low word (R69). -/
def mulH (y : Elem) (t : Vector Elem 16) : Elem := mulWord t y.low (mulWord t y.high gfZero)

/-- Chunk k of a byte string: its bytes 16k .. 16k+15, zero-padded to 16 bytes at the end (R71). Chunks are
counted from the start of the data (D19). -/
def dataChunk (data : List Byte) (k : Nat) : Block :=
  let c := (data.drop (16 * k)).take 16
  Block.ofBytes (c ++ List.replicate (16 - c.length) 0)

/-- One turn of R71's loop: XOR the chunk in, then multiply. -/
def absorbStep (t : Vector Elem 16) (data : List Byte) (acc : Elem) (k : Nat) : Elem :=
  mulH (gfAdd acc (elem (dataChunk data k))) t

/-- absorb(acc, data, T): every chunk in order; none for the empty string (R71). -/
def gfAbsorb (acc : Elem) (data : List Byte) (t : Vector Elem 16) : Elem :=
  (List.range ((data.length + 15) / 16)).foldl (absorbStep t data) acc

/-- GFADD (R72). -/
def execGfadd (vd va vb : VReg) (s : State) : Host.Outcome State Fault Refusal :=
  .next (s.writeElem vd (gfAdd (s.readElem va) (s.readElem vb)))

/-- GFDBL (R73). -/
def execGfdbl (vd va : VReg) (s : State) : Host.Outcome State Fault Refusal :=
  .next (s.writeElem vd (gfDouble (s.readElem va)))

/-- GFMULH (R75). -/
def execGfmulh (vd va : VReg) (s : State) : Host.Outcome State Fault Refusal :=
  if s.tv = false then raise .notab (.gfmulh vd va) s
  else .next (s.writeElem vd (mulH (s.readElem va) s.tab))

/-- BUILDTAB (R67). -/
def execBuildtab (va : VReg) (s : State) : Host.Outcome State Fault Refusal :=
  if s.tv = true then raise .tablock (.buildtab va) s
  else .next (s.installTable (buildProductTable (s.readElem va)))

/-- RDTAB (R74): whatever TV is (D29). -/
def execRdtab (vd : VReg) (idx : TabIndex) (s : State) : Host.Outcome State Fault Refusal :=
  .next (s.writeElem vd (s.readTab idx))

/-- ABSORB (R76): E_NOTAB before E_BOUNDS (R97). -/
def execAbsorb (vd : VReg) (rs rn : SReg) (s : State) : Host.Outcome State Fault Refusal :=
  if s.tv = false then raise .notab (.absorb vd rs rn) s
  else
    let a := s.number rs
    let n := s.number rn
    if s.admitted a n then .next (s.writeElem vd (gfAbsorb (s.readElem vd) (s.memRead a n) s.tab))
    else raise .bounds (.absorb vd rs rn) s

end Sys2Proof.Machine
end

