-- ==== Sys2Proof/Machine/Overlap.lean ====
section
/-! DEFINITION. The overlap detector (43_overlap.md): the two predicates and OVLP. -/

namespace Sys2Proof.Machine

/-- The ranges (s1, l1) and (s2, l2) share a byte, over unbounded integers (R85). -/
def anyOverlap (s1 l1 s2 l2 : Nat) : Bool := decide (l1 > 0 ∧ l2 > 0 ∧ s1 < s2 + l2 ∧ s2 < s1 + l1)

/-- They share a byte and are not the same range (R86). -/
def inexactOverlap (s1 l1 s2 l2 : Nat) : Bool := anyOverlap s1 l1 s2 l2 && !decide (s1 = s2 ∧ l1 = l2)

/-- The range ends at or below 2^64 (R88). -/
def rangeValid (s l : Nat) : Bool := decide (s + l ≤ 2 ^ 64)

/-- OVLP's result: bit 0 any overlap, bit 1 inexact overlap (R87). -/
def overlapResult (s1 l1 s2 l2 : Nat) : Nat :=
  (inexactOverlap s1 l1 s2 l2).toNat <<< 1 ||| (anyOverlap s1 l1 s2 l2).toNat

/-- OVLP (R87): it compares numbers only; BUF and BUF_SIZE play no part. -/
def execOvlp (rd ra rla rb rlb : SReg) (s : State) : Host.Outcome State Fault Refusal :=
  let s1 := s.number ra
  let l1 := s.number rla
  let s2 := s.number rb
  let l2 := s.number rlb
  if rangeValid s1 l1 && rangeValid s2 l2 then .next (s.writeNumber rd (overlapResult s1 l1 s2 l2))
  else raise .range (.ovlp rd ra rla rb rlb) s

end Sys2Proof.Machine
end

