-- ==== Sys2Proof/Machine/Keystream.lean ====
section
/-! DEFINITION. The keystream combiner (42_keystream_xor.md): XORM. -/

namespace Sys2Proof.Machine

/-- The byte-wise XOR of two byte strings of one length (R82). -/
def xorBytes (x y : List Byte) : List Byte := List.zipWith (fun p q => p ^^^ q) x y

/-- XORM (R82): the three bounds checks, then the two aliasing checks (R97); both ranges are read before any
byte is written. -/
def execXorm (rd ra rb rn : SReg) (s : State) : Host.Outcome State Fault Refusal :=
  let d := s.number rd
  let a := s.number ra
  let b := s.number rb
  let n := s.number rn
  if !s.admitted d n then raise .bounds (.xorm rd ra rb rn) s
  else if !s.admitted a n then raise .bounds (.xorm rd ra rb rn) s
  else if !s.admitted b n then raise .bounds (.xorm rd ra rb rn) s
  else if inexactOverlap d n a n then raise .overlap (.xorm rd ra rb rn) s
  else if inexactOverlap d n b n then raise .overlap (.xorm rd ra rb rn) s
  else .next (s.memWrite d (xorBytes (s.memRead a n) (s.memRead b n)))

end Sys2Proof.Machine
end

