-- ==== Sys2Proof/Machine/Utility.lean ====
section
/-! DEFINITION. The utility commands (44_utility.md): REV4, LDV, STV and NOP. -/

namespace Sys2Proof.Machine

/-- REV4 (R90): an input above 15 faults, it is not truncated (D18). -/
def execRev4 (rd rs : SReg) (s : State) : Host.Outcome State Fault Refusal :=
  let v := s.number rs
  if v > 15 then raise .range (.rev4 rd rs) s
  else .next (s.writeNumber rd (rev4 (BitVec.ofNat 4 v)).toNat)

/-- LDV (R91). -/
def execLdv (vd : VReg) (rs : SReg) (s : State) : Host.Outcome State Fault Refusal :=
  let a := s.number rs
  if s.admitted a 16 then .next (s.writeV vd (Block.ofBytes (s.memRead a 16)))
  else raise .bounds (.ldv vd rs) s

/-- STV (R92). -/
def execStv (va : VReg) (rs : SReg) (s : State) : Host.Outcome State Fault Refusal :=
  let a := s.number rs
  if s.admitted a 16 then .next (s.memWrite a (Block.toBytes (s.readV va)))
  else raise .bounds (.stv va rs) s

/-- NOP (R93). -/
def execNop (s : State) : Host.Outcome State Fault Refusal := .next s

end Sys2Proof.Machine
end

