-- ==== Sys2Proof/Machine/Dispatch.lean ====
section
/-! DEFINITION. One arm per command: the meaning it calls. -/

namespace Sys2Proof.Machine

def exec (i : Instr) (s : State) : Host.Outcome State Fault Refusal :=
  match i with
  | .nop => Sys2Proof.Machine.execNop s
  | .gfadd vd va vb => Sys2Proof.Machine.execGfadd vd va vb s
  | .gfdbl vd va => Sys2Proof.Machine.execGfdbl vd va s
  | .gfmulh vd va => Sys2Proof.Machine.execGfmulh vd va s
  | .buildtab va => Sys2Proof.Machine.execBuildtab va s
  | .rdtab vd idx => Sys2Proof.Machine.execRdtab vd idx s
  | .absorb vd rs rn => Sys2Proof.Machine.execAbsorb vd rs rn s
  | .ctrinit vd va rn => Sys2Proof.Machine.execCtrinit vd va rn s
  | .inc32 vd va => Sys2Proof.Machine.execInc32 vd va s
  | .xorm rd ra rb rn => Sys2Proof.Machine.execXorm rd ra rb rn s
  | .ovlp rd ra rla rb rlb => Sys2Proof.Machine.execOvlp rd ra rla rb rlb s
  | .ldv vd rs => Sys2Proof.Machine.execLdv vd rs s
  | .stv va rs => Sys2Proof.Machine.execStv va rs s
  | .rev4 rd rs => Sys2Proof.Machine.execRev4 rd rs s

end Sys2Proof.Machine
end

