-- ==== Sys2Proof/Machine/Flags.lean ====
section
/-! DEFINITION. STATUS, the block's only status register (10_state.md R22). The block has no condition codes,
flags or predicates, and no command sets a flag (R24): there is no other flag computation. -/

namespace Sys2Proof.Machine

/-- A one-bit field at bit `k` of a 32-bit register. -/
def statusBit (b : Bool) (k : Nat) : Word32 := if b then 1#32 <<< k else 0

/-- STATUS as the host reads it (R22): FAULT at bit 0, TV at bit 1, BUSY at bit 2, CODE at bits 15:8, every
other bit 0. -/
def State.statusWord (s : State) : Word32 :=
  statusBit s.fault 0 ||| statusBit s.tv 1 ||| statusBit s.busy 2 ||| (s.code.setWidth 32 <<< 8)

end Sys2Proof.Machine
end

