-- ==== Sys2Proof/Machine/HostPort.lean ====
section
/-! DEFINITION. The host port: its ten transactions (60_exceptions.md R105, R106), what they are admitted on
(R117, 93 U2, U3), and how an issued command is run (R95-R97). -/

namespace Sys2Proof.Machine

/-- A read transaction returns a value: the host observes it (R113). -/
def State.observe (s : State) (x : HostValue) : State := { s with observed := s.observed ++ [x] }

/-- The block executes the word w (R97): while FAULT = 1 the command is discarded (R96); a word that does not
decode raises E_ILLEGAL (R53); a command that decodes runs. -/
def runCommand (w : Word32) (s : State) : Host.Outcome State Fault Refusal :=
  if s.fault then .next s
  else
    match decode w with
    | .error _ => .next (raiseFault .illegal w s)
    | .ok i => exec i s

/-- STATUS.BUSY is 1 while a command executes (R22). -/
def State.startCommand (s : State) : State := { s with busy := true }

/-- The command completes: BUSY reads 0 (R106). -/
def State.finishCommand (s : State) : State := { s with busy := false }

/-- `finishCommand` on a command's next state. -/
def completeCommand : Host.Outcome State Fault Refusal → Host.Outcome State Fault Refusal
  | .next s => .next s.finishCommand
  | .fault r => .fault r
  | .refused r => .refused r

/-- HISSUE: the block executes w atomically, BUSY reading 1 until it completes (R106). One step (R117, R121):
entry 1. -/
def issue (w : Word32) (s : State) : Host.Outcome State Fault Refusal :=
  completeCommand (runCommand w s.startCommand)

/-- A transaction admitted when BUSY = 0 (R106); otherwise it is outside the protocol and refused (R117, U3). -/
def whenIdle (s : State) (o : Host.Outcome State Fault Refusal) : Host.Outcome State Fault Refusal :=
  if s.busy then .refused .hostWhileBusy else o

/-- A BUF transaction, admitted also only below BUF_SIZE (R106, U2). -/
def whenInBuf (s : State) (a : Nat) (o : Host.Outcome State Fault Refusal) : Host.Outcome State Fault Refusal :=
  if a < s.bufSize then o else .refused .hostBufOutOfRange

/-- The effect of one host-port transaction (R106). -/
def hostStep (x : HostTxn) (s : State) : Host.Outcome State Fault Refusal :=
  match x with
  | .wrR i v => whenIdle s (.next (s.writeR i v))
  | .rdR i => whenIdle s (.next (s.observe (.scalar (s.readR i))))
  | .wrV i b => whenIdle s (.next (s.writeV i (Block.ofBytes b.toList)))
  | .rdV i => whenIdle s (.next (s.observe (.vector (Block.toBytes (s.readV i)))))
  | .wrBuf a b => whenIdle s (whenInBuf s a (.next (s.writeByte a b)))
  | .rdBuf a => whenIdle s (whenInBuf s a (.next (s.observe (.byte (s.readByte a)))))
  | .rdStatus => .next (s.observe (.status s.statusWord))
  | .rdFcmd => whenIdle s (.next (s.observe (.fcmd s.fcmd)))
  | .issue w => whenIdle s (issue w s)
  | .reset => .next s.hostReset

/-- The host's next transaction has been taken: the others are still to come. -/
def State.afterTxn (s : State) (rest : List HostTxn) : State := { s with pending := rest }

/-- One step: the host's next transaction, or, when there is none, the idle block, which keeps all state
(R13, R41, R109). Entry 12. -/
def nextTransaction (s : State) : Host.Outcome State Fault Refusal :=
  match s.pending with
  | [] => .next s
  | x :: rest => hostStep x (s.afterTxn rest)

/-- The host issues, as its very next transaction, the command whose bits are w. -/
def placeCommand (s : State) (nbits w : Nat) : State :=
  { s with pending := .issue (BitVec.ofNat 32 (w % 2 ^ nbits)) :: s.pending }

end Sys2Proof.Machine
end

