-- ==== Sys2Proof/Machine/Step.lean ====
section
/-! DEFINITION. One step of the machine, and how a command is placed where the next step finds it. -/

namespace Sys2Proof.Machine

/-- One step (10_state.md R13; 20_memory.md R41): the host's next transaction. -/
def step (s : State) : Host.Outcome State Fault Refusal := nextTransaction s

/-- The block fetches no code (20_memory.md R44): a command arrives when the host issues it, so a command is
placed by making its HISSUE the host's next transaction. Entry 11. -/
def State.withFetchWord (s : State) (nbits w : Nat) : State := placeCommand s nbits w

end Sys2Proof.Machine
end

