-- ==== Sys2Proof/FieldSpec.lean ====
section
/-! DEFINITION. The field GF(2^128) as mathematics (40_gf128.md R61, R62), in the terms the statements use: an
element as a polynomial over the two-element field, and congruence modulo 1 + x + x^2 + x^7 + x^128. No
definition of the machine uses this file. -/

namespace Sys2Proof.FieldSpec

open Polynomial Sys2Proof.Machine

/-- Coefficient c_i of an element, i in 0..127 (R62). -/
def coeff (e : Elem) (i : Nat) : Bool := if i < 64 then e.low.getLsbD (63 - i) else e.high.getLsbD (127 - i)

/-- The polynomial with the given coefficients at x^0 .. x^(n-1). -/
noncomputable def polyOf (n : Nat) (c : Nat → Bool) : (ZMod 2)[X] :=
  ∑ i ∈ Finset.range n, if c i then X ^ i else 0

/-- The polynomial an element stands for (R61). -/
noncomputable def toPoly (e : Elem) : (ZMod 2)[X] := polyOf 128 (coeff e)

/-- 1 + x + x^2 + x^7 + x^128 (R61). -/
noncomputable def fieldPoly : (ZMod 2)[X] := 1 + X + X ^ 2 + X ^ 7 + X ^ 128

/-- Two polynomials stand for the same element of the field: they differ by a multiple of the field polynomial
(R61). -/
def FieldEq (p q : (ZMod 2)[X]) : Prop := ∃ k, p = q + fieldPoly * k

/-- The polynomial whose x^t coefficient is bit t of i, t in 0..3 (R66). -/
noncomputable def smallPoly (i : Nat) : (ZMod 2)[X] := polyOf 4 i.testBit

/-- The terms that a 4-bit right shift pushes past c_127, times x^4: bit b of m is c_(127-b), and stands for
x^(131-b) afterwards (R68). -/
noncomputable def overflowPoly (m : BitVec 4) : (ZMod 2)[X] :=
  ∑ b ∈ Finset.range 4, if m.getLsbD b then X ^ (131 - b) else 0

end Sys2Proof.FieldSpec
end

