-- ==== Sys2Proof/Machine/Assembler.lean ====
section
/-! DEFINITION. The assembler's line syntax and the pseudo-instructions (30_encoding.md R59, R60): text to
written commands, written commands to commands, commands to words. What R59 leaves open is entry 10. -/

namespace Sys2Proof.Machine

/-- A blank of a line. -/
def isBlank (c : Char) : Bool := c == ' ' || c == '\t'

/-- The text before the comment that `;` starts (R59). -/
def stripComment (cs : List Char) : List Char := cs.takeWhile fun c => c != ';'

/-- The text without its blanks at either end. -/
def trimBlanks (cs : List Char) : List Char := ((cs.dropWhile isBlank).reverse.dropWhile isBlank).reverse

/-- The parts of a text between its commas. -/
def splitCommas : List Char → List (List Char)
  | [] => [[]]
  | c :: rest =>
    if c == ',' then [] :: splitCommas rest
    else
      match splitCommas rest with
      | [] => [[c]]
      | p :: ps => (c :: p) :: ps

/-- The value of a decimal digit. -/
def decDigit (c : Char) : Option Nat :=
  if 48 ≤ c.toNat && c.toNat ≤ 57 then some (c.toNat - 48) else none

/-- The value of a hexadecimal digit. -/
def hexDigit (c : Char) : Option Nat :=
  if 97 ≤ c.toNat && c.toNat ≤ 102 then some (c.toNat - 87)
  else if 65 ≤ c.toNat && c.toNat ≤ 70 then some (c.toNat - 55)
  else decDigit c

/-- The number that digits of a base write, most significant first. -/
def readDigits (base : Nat) (digit : Char → Option Nat) (cs : List Char) : Option Nat :=
  cs.foldl (fun acc c => match acc, digit c with
    | some n, some d => some (base * n + d)
    | _, _ => none) (some 0)

/-- A decimal or `0x` hexadecimal number (R59). -/
def readNumber : List Char → Option Nat
  | [] => none
  | '0' :: 'x' :: c :: cs => readDigits 16 hexDigit (c :: cs)
  | cs => readDigits 10 decDigit cs

/-- One operand: `v<d>`, `r<d>`, `[r<d>]` or a number (R59). -/
def readOperand (cs : List Char) : Option Operand :=
  match cs with
  | ['v', d] => (decDigit d).map Operand.v
  | ['r', d] => (decDigit d).map Operand.r
  | '[' :: rest =>
    match rest.reverse with
    | ']' :: inner =>
      match trimBlanks inner.reverse with
      | ['r', d] => (decDigit d).map Operand.at
      | _ => none
    | _ => none
  | _ => (readNumber cs).map Operand.idx

/-- The operands between commas; no operand at all when the text is empty. -/
def readOperands (cs : List Char) : Option (List Operand) :=
  match cs with
  | [] => some []
  | _ => (splitCommas cs).mapM fun p => readOperand (trimBlanks p)

/-- A letter in capitals: mnemonics are case-insensitive (R59). -/
def capital (c : Char) : Char := if 97 ≤ c.toNat && c.toNat ≤ 122 then Char.ofNat (c.toNat - 32) else c

/-- The written command of a line's text, `none` where the text is none; a line that holds nothing but blanks
and a comment is an empty list of commands. -/
def readLine (cs : List Char) : Option (List Line) :=
  let t := trimBlanks (stripComment cs)
  match t with
  | [] => some []
  | _ =>
    let m := t.takeWhile fun c => !isBlank c
    (readOperands (trimBlanks (t.drop m.length))).map fun ops => [⟨String.ofList (m.map capital), ops⟩]

/-- A register number as an operand field, of a number that the line's check holds below 8. -/
def regField (n : Nat) : Fin 8 := Fin.ofNat 8 n

/-- CLRV vd (R60). -/
def pseudoClrv (vd : VReg) : List Instr := [.gfadd vd vd vd]

/-- MOVV vd, va (R60): two commands, or NOP when vd = va. -/
def pseudoMovv (vd va : VReg) : List Instr :=
  if vd = va then [.nop] else [.gfadd vd vd vd, .gfadd vd va vd]

/-- CTRSTART vd, va, rn (R60). -/
def pseudoCtrstart (vd va : VReg) (rn : SReg) : List Instr := [.ctrinit vd va rn, .inc32 vd vd]

/-- The commands a mnemonic with its operands stands for (R49, R59, R60). -/
def expandLine (mnemonic : String) (ops : List Operand) : Option (List Instr) :=
  match mnemonic, ops with
  | "NOP", [] => some [.nop]
  | "GFADD", [.v d, .v a, .v b] => some [.gfadd (regField d) (regField a) (regField b)]
  | "GFDBL", [.v d, .v a] => some [.gfdbl (regField d) (regField a)]
  | "GFMULH", [.v d, .v a] => some [.gfmulh (regField d) (regField a)]
  | "BUILDTAB", [.v a] => some [.buildtab (regField a)]
  | "RDTAB", [.v d, .idx k] => some [.rdtab (regField d) (BitVec.ofNat 4 k)]
  | "ABSORB", [.v d, .at s, .r n] => some [.absorb (regField d) (regField s) (regField n)]
  | "CTRINIT", [.v d, .v a, .r n] => some [.ctrinit (regField d) (regField a) (regField n)]
  | "INC32", [.v d, .v a] => some [.inc32 (regField d) (regField a)]
  | "XORM", [.at d, .at a, .at b, .r n] => some [.xorm (regField d) (regField a) (regField b) (regField n)]
  | "OVLP", [.r d, .r a, .r la, .r b, .r lb] =>
    some [.ovlp (regField d) (regField a) (regField la) (regField b) (regField lb)]
  | "LDV", [.v d, .at s] => some [.ldv (regField d) (regField s)]
  | "STV", [.v a, .at s] => some [.stv (regField a) (regField s)]
  | "REV4", [.r d, .r s] => some [.rev4 (regField d) (regField s)]
  | "CLRV", [.v d] => some (pseudoClrv (regField d))
  | "MOVV", [.v d, .v a] => some (pseudoMovv (regField d) (regField a))
  | "CTRSTART", [.v d, .v a, .r n] => some (pseudoCtrstart (regField d) (regField a) (regField n))
  | _, _ => none

/-- The commands of a well-formed line; none of an ill-formed one. -/
def assembleLine (l : Line) : Option (List Instr) :=
  if l.wellFormed then expandLine l.mnemonic l.operands else none

/-- The commands of several lines, in order. -/
def assembleLines : List Line → Option (List Instr)
  | [] => some []
  | l :: rest =>
    match assembleLine l, assembleLines rest with
    | some is, some more => some (is ++ more)
    | _, _ => none

/-- The words of one line of assembler text (R59). -/
def assembleText (text : String) : Option (List Word32) :=
  match readLine text.toList with
  | none => none
  | some ls => (assembleLines ls).map fun is => is.map encode

end Sys2Proof.Machine
end

