-- ==== Sys2Proof/Safety.lean ====
section
/-! DEFINITION. What the statements speak of: what a command leaves unchanged, the order of its checks as
60_exceptions.md R97 lists it, the invariants of the machine, and runs (70_reset_and_hazards.md R113). No
definition of the machine uses this file. -/

namespace Sys2Proof.Safety

open Sys2Proof.Machine

/-! ## Frames -/

/-- Every vector register is unchanged. -/
def SameV (s t : State) : Prop := ∀ i, t.readV i = s.readV i

/-- Every vector register but one is unchanged. -/
def SameVBut (d : VReg) (s t : State) : Prop := ∀ i, i ≠ d → t.readV i = s.readV i

/-- Every scalar register is unchanged. -/
def SameR (s t : State) : Prop := ∀ i, t.readR i = s.readR i

/-- Every scalar register but one is unchanged. -/
def SameRBut (d : SReg) (s t : State) : Prop := ∀ i, i ≠ d → t.readR i = s.readR i

/-- The product table and TV are unchanged. -/
def SameTable (s t : State) : Prop := (∀ k, t.readTab k = s.readTab k) ∧ t.tv = s.tv

/-- Every byte of BUF reads as before. -/
def SameBuf (s t : State) : Prop := ∀ a, t.readByte a = s.readByte a

/-- Every byte of BUF outside the n bytes from `start` reads as before. -/
def SameBufOutside (start n : Nat) (s t : State) : Prop :=
  ∀ a, ¬(start ≤ a ∧ a < start + n) → t.readByte a = s.readByte a

/-- STATUS's own fields and FCMD are unchanged. -/
def SameStatus (s t : State) : Prop :=
  t.fault = s.fault ∧ t.busy = s.busy ∧ t.code = s.code ∧ t.fcmd = s.fcmd

/-- BUF_SIZE, the free draw, the host's coming transactions and its observation are unchanged. -/
def SameRest (s t : State) : Prop :=
  t.bufSize = s.bufSize ∧ t.draw = s.draw ∧ t.pending = s.pending ∧ t.observed = s.observed

/-- Only V[d] may have changed. -/
def OnlyV (d : VReg) (s t : State) : Prop :=
  SameVBut d s t ∧ SameR s t ∧ SameTable s t ∧ SameBuf s t ∧ SameStatus s t ∧ SameRest s t

/-- Only R[d] may have changed. -/
def OnlyR (d : SReg) (s t : State) : Prop :=
  SameV s t ∧ SameRBut d s t ∧ SameTable s t ∧ SameBuf s t ∧ SameStatus s t ∧ SameRest s t

/-- Only the n bytes of BUF from `start` may have changed. -/
def OnlyBuf (start n : Nat) (s t : State) : Prop :=
  SameV s t ∧ SameR s t ∧ SameTable s t ∧ SameBufOutside start n s t ∧ SameStatus s t ∧ SameRest s t

/-- Only TAB and TV may have changed. -/
def OnlyTable (s t : State) : Prop :=
  SameV s t ∧ SameR s t ∧ SameBuf s t ∧ SameStatus s t ∧ SameRest s t

/-- The state after a fault (R95): STATUS.FAULT, STATUS.CODE and FCMD are set, and nothing else changes. -/
def faulted (code : BitVec 8) (w : Word32) (s : State) : State :=
  { s with fault := true, code := code, fcmd := w }

/-! ## The order of the checks -/

/-- A command's own checks in the order R97 lists them: whether the check FAILS, and the fault it raises. -/
def checks (s : State) : Instr → List (Bool × BitVec 8)
  | .nop => []
  | .gfadd _ _ _ => []
  | .gfdbl _ _ => []
  | .gfmulh _ _ => [(!s.tv, 2)]
  | .buildtab _ => [(s.tv, 3)]
  | .rdtab _ _ => []
  | .absorb _ rs rn => [(!s.tv, 2), (decide (s.bufSize < (s.readR rs).toNat + (s.readR rn).toNat), 6)]
  | .ctrinit _ _ rn => [(decide (s.readR rn ≠ 12), 4)]
  | .inc32 _ _ => []
  | .xorm rd ra rb rn =>
    let d := (s.readR rd).toNat
    let a := (s.readR ra).toNat
    let b := (s.readR rb).toNat
    let n := (s.readR rn).toNat
    [(decide (s.bufSize < d + n), 6), (decide (s.bufSize < a + n), 6), (decide (s.bufSize < b + n), 6),
     (decide (0 < n ∧ d < a + n ∧ a < d + n ∧ d ≠ a), 7), (decide (0 < n ∧ d < b + n ∧ b < d + n ∧ d ≠ b), 7)]
  | .ovlp _ ra rla rb rlb =>
    [(decide (2 ^ 64 < (s.readR ra).toNat + (s.readR rla).toNat), 5),
     (decide (2 ^ 64 < (s.readR rb).toNat + (s.readR rlb).toNat), 5)]
  | .ldv _ rs => [(decide (s.bufSize < (s.readR rs).toNat + 16), 6)]
  | .stv _ rs => [(decide (s.bufSize < (s.readR rs).toNat + 16), 6)]
  | .rev4 _ rs => [(decide (15 < (s.readR rs).toNat), 5)]

/-- The code of the first check that fails. -/
def firstFailure (s : State) (i : Instr) : Option (BitVec 8) := ((checks s i).find? fun c => c.1).map fun c => c.2

/-- The opcodes of R52, each with the reserved-bit mask of its format (R48, R49). -/
def reservedMasks : List (Nat × Word32) :=
  [(0x00, 0x03FFFFFF), (0x01, 0x0001FFFF), (0x02, 0x000FFFFF), (0x03, 0x000FFFFF), (0x04, 0x007FFFFF),
   (0x05, 0x0007FFFF), (0x06, 0x0001FFFF), (0x08, 0x0001FFFF), (0x09, 0x000FFFFF), (0x0C, 0x00003FFF),
   (0x10, 0x000007FF), (0x14, 0x000FFFFF), (0x15, 0x000FFFFF), (0x18, 0x000FFFFF)]

/-! ## Who may write what, and who reads BUF -/

/-- The commands that may write a vector register (R27). -/
def writesV : Instr → Bool
  | .gfadd _ _ _ => true
  | .gfdbl _ _ => true
  | .gfmulh _ _ => true
  | .rdtab _ _ => true
  | .absorb _ _ _ => true
  | .ctrinit _ _ _ => true
  | .inc32 _ _ => true
  | .ldv _ _ => true
  | .nop => false
  | .buildtab _ => false
  | .xorm _ _ _ _ => false
  | .ovlp _ _ _ _ _ => false
  | .stv _ _ => false
  | .rev4 _ _ => false

/-- The commands that may write a scalar register (R27). -/
def writesR : Instr → Bool
  | .ovlp _ _ _ _ _ => true
  | .rev4 _ _ => true
  | .nop => false
  | .gfadd _ _ _ => false
  | .gfdbl _ _ => false
  | .gfmulh _ _ => false
  | .buildtab _ => false
  | .rdtab _ _ => false
  | .absorb _ _ _ => false
  | .ctrinit _ _ _ => false
  | .inc32 _ _ => false
  | .xorm _ _ _ _ => false
  | .ldv _ _ => false
  | .stv _ _ => false

/-- The one command that may write TAB and TV (R18, R27). -/
def writesTable : Instr → Bool
  | .buildtab _ => true
  | .nop => false
  | .gfadd _ _ _ => false
  | .gfdbl _ _ => false
  | .gfmulh _ _ => false
  | .rdtab _ _ => false
  | .absorb _ _ _ => false
  | .ctrinit _ _ _ => false
  | .inc32 _ _ => false
  | .xorm _ _ _ _ => false
  | .ovlp _ _ _ _ _ => false
  | .ldv _ _ => false
  | .stv _ _ => false
  | .rev4 _ _ => false

/-- The commands that may write BUF (R27). -/
def writesBuf : Instr → Bool
  | .xorm _ _ _ _ => true
  | .stv _ _ => true
  | .nop => false
  | .gfadd _ _ _ => false
  | .gfdbl _ _ => false
  | .gfmulh _ _ => false
  | .buildtab _ => false
  | .rdtab _ _ => false
  | .absorb _ _ _ => false
  | .ctrinit _ _ _ => false
  | .inc32 _ _ => false
  | .ovlp _ _ _ _ _ => false
  | .ldv _ _ => false
  | .rev4 _ _ => false

/-- Address a is among the n bytes from `start`. -/
def inRange (start n a : Nat) : Bool := decide (start ≤ a ∧ a < start + n)

/-- The addresses of BUF that a command reads (R31, R37). -/
def readsAddress (s : State) (i : Instr) (a : Nat) : Bool :=
  match i with
  | .ldv _ rs => inRange (s.readR rs).toNat 16 a
  | .absorb _ rs rn => inRange (s.readR rs).toNat (s.readR rn).toNat a
  | .xorm _ ra rb rn =>
    inRange (s.readR ra).toNat (s.readR rn).toNat a || inRange (s.readR rb).toNat (s.readR rn).toNat a
  | .nop => false
  | .gfadd _ _ _ => false
  | .gfdbl _ _ => false
  | .gfmulh _ _ => false
  | .buildtab _ => false
  | .rdtab _ _ => false
  | .ctrinit _ _ _ => false
  | .inc32 _ _ => false
  | .ovlp _ _ _ _ _ => false
  | .stv _ _ => false
  | .rev4 _ _ => false

/-- Something has written BUF[a] since the last reset (U1). -/
def Written (s : State) (a : Nat) : Prop := ∃ b, Memory.byte? s.buf a = some b

/-- The same state over another free draw of BUF's unwritten bytes. -/
def overDraw (d : Nat) (s : State) : State := { s with draw := d }

/-! ## Invariants -/

/-- STATUS and FCMD agree (R22, R23, R94): no fault, no code and no word; a fault has one of the seven codes;
and between steps no command is executing. -/
def StatusConsistent (s : State) : Prop :=
  (s.fault = false → s.code = 0 ∧ s.fcmd = 0) ∧ (s.fault = true → 1 ≤ s.code.toNat ∧ s.code.toNat ≤ 7) ∧
    s.busy = false

/-- TV says what TAB holds (R18, R19, R30): with TV = 0 the reset value, with TV = 1 the table that BUILDTAB
builds of H = TAB[8]. -/
def TableConsistent (s : State) : Prop :=
  (s.tv = false → ∀ k, s.readTab k = ⟨0, 0⟩) ∧ (s.tv = true → s.tab = buildProductTable (s.readTab 8))

/-- BUF's cells are in canonical form and lie in BUF, whose size is legal (R7, R31). -/
def BufConsistent (s : State) : Prop :=
  Memory.wf s.buf ∧ (∀ c ∈ s.buf, c.1 < s.bufSize) ∧ Config.legalBufSize s.bufSize = true

/-! ## Runs -/

/-- The commands `is`, one after the other, take s to t (R96, R97: each must not fault to be followed). -/
def RunsTo : List Instr → State → State → Prop
  | [], s, t => t = s
  | i :: rest, s, t => ∃ u, exec i s = .next u ∧ u.fault = s.fault ∧ RunsTo rest u t

/-- A run is failed if STATUS.FAULT = 1 at its end (R113). -/
def Failed (s : State) : Prop := s.fault = true

end Sys2Proof.Safety
end

