-- ==== Sys2Proof/Certificates/Slice0/Obligations.lean ====
section
/-! DEFINITION. The statements for the provers. Each docstring names the rule of spec/ it comes from. A
statement about one command speaks of `exec`, about an issued word of `runCommand` (60_exceptions.md R97), about
a host transaction of `hostStep` (R106), about the whole machine of `step`. The clauses that speak of `pending`,
`observed` or `draw` rest on the model's own form of the host (entry 2) and of U1's draw (entry 5). -/

open Sys2Proof Sys2Proof.Machine Sys2Proof.Safety Sys2Proof.FieldSpec

/-! ## Encoding (30_encoding.md) -/

/-- Decoding the word of any command gives the command back, with every operand (R47-R51). -/
def Obligations.DecodeOfEncodeIsTheCommand : Prop := ∀ i : Instr, decode (encode i) = .ok i

/-- A word that decodes is the word of its command: no bit of a legal word is ignored (R53, R55). -/
def Obligations.EncodeOfDecodeIsTheWord : Prop := ∀ (w : Word32) (i : Instr), decode w = .ok i → encode i = w

/-- The words that decode are those that a row of the opcode table selects by its match and mask, and each
decodes to a command of that row (the last sentence of R53). -/
def Obligations.DecoderAcceptsTheOpcodeTable : Prop :=
  (∀ (w : Word32) (i : Instr), decode w = .ok i → ∃ row ∈ opcodeTable, w &&& row.mask = row.pattern) ∧
    ∀ (w : Word32), ∀ row ∈ opcodeTable, w &&& row.mask = row.pattern →
      ∃ i : Instr, decode w = .ok i ∧ i.toLine.mnemonic = row.mnemonic

/-- The example encodings of R59 decode to the commands they stand for. -/
def Obligations.ExampleWordsDecode : Prop :=
  decode 0x04A60000 = .ok (.gfadd 1 2 3) ∧ decode 0x0BF00000 = .ok (.gfdbl 7 7) ∧
    decode 0x15F80000 = .ok (.rdtab 3 15) ∧ decode 0x3014C000 = .ok (.xorm 0 1 2 3) ∧
    decode 0x4394E000 = .ok (.ovlp 7 1 2 3 4) ∧ decode 0x50500000 = .ok (.ldv 0 5) ∧
    decode 0x20880000 = .ok (.ctrinit 1 0 4) ∧ decode 0x10000000 = .ok (.buildtab 0)

/-- The all-zero word is NOP, and no other word with OP = 0 is legal (R57). -/
def Obligations.ZeroWordIsTheOnlyNop : Prop :=
  decode 0x00000000 = .ok .nop ∧
    ∀ (w : Word32) (i : Instr), w.extractLsb' 26 6 = 0 → decode w = .ok i → w = 0x00000000

/-- Issuing a word whose OP is unassigned raises E_ILLEGAL, changes nothing else, and records the word in FCMD
(R54). -/
def Obligations.UnassignedOpcodeRaisesIllegal : Prop :=
  ∀ (w : Word32) (s : State), s.fault = false →
    (∀ row ∈ reservedMasks, (w.extractLsb' 26 6).toNat ≠ row.1) → runCommand w s = .next (faulted 1 w s)

/-- Issuing a word with an assigned OP and a reserved bit of its format set does exactly the same (R55). -/
def Obligations.ReservedBitRaisesIllegal : Prop :=
  ∀ (w : Word32) (s : State), s.fault = false →
    (∃ row ∈ reservedMasks, (w.extractLsb' 26 6).toNat = row.1 ∧ w &&& row.2 ≠ 0) →
      runCommand w s = .next (faulted 1 w s)

/-! ## Faults and the order of execution (60_exceptions.md) -/

/-- R97: a command issued while FAULT = 1 is discarded; otherwise a word that does not decode raises E_ILLEGAL;
otherwise the first check of the command that fails decides the fault, and when none fails the command
completes without a fault. -/
def Obligations.ChecksReportTheFirstFailure : Prop :=
  ∀ (w : Word32) (s : State),
    (s.fault = true → runCommand w s = .next s) ∧
      (s.fault = false →
        (∀ e, decode w = .error e → runCommand w s = .next (faulted 1 w s)) ∧
          ∀ i, decode w = .ok i →
            (∀ c, firstFailure s i = some c → runCommand w s = .next (faulted c w s)) ∧
              (firstFailure s i = none → ∃ t, runCommand w s = .next t ∧ SameStatus s t))

/-- R95: after a command has faulted the state is exactly the state before it, but for FAULT, which is 1, CODE, which
is the code of the fault that the command raises, and FCMD, which is the command word. -/
def Obligations.FaultsArePrecise : Prop :=
  ∀ (w : Word32) (s t : State), s.fault = false → runCommand w s = .next t → t.fault = true →
    ∃ c, t = { s with fault := true, code := c, fcmd := w } ∧
      ((c = 1 ∧ ∃ e, decode w = .error e) ∨ ∃ i, decode w = .ok i ∧ firstFailure s i = some c)

/-- R94: every fault, the code it leaves, the commands that raise it and its cause. -/
def Obligations.EachFaultHasItsCodeAndCause : Prop :=
  ∀ (w : Word32) (s t : State), s.fault = false → runCommand w s = .next t → t.fault = true →
    (t.code = 1 ∧ ∃ e, decode w = .error e) ∨
    (t.code = 2 ∧ s.tv = false ∧
      ((∃ vd va, decode w = .ok (.gfmulh vd va)) ∨ ∃ vd rs rn, decode w = .ok (.absorb vd rs rn))) ∨
    (t.code = 3 ∧ s.tv = true ∧ ∃ va, decode w = .ok (.buildtab va)) ∨
    (t.code = 4 ∧ ∃ vd va rn, decode w = .ok (.ctrinit vd va rn) ∧ s.readR rn ≠ 12) ∨
    (t.code = 5 ∧
      ((∃ rd rs, decode w = .ok (.rev4 rd rs) ∧ 15 < (s.readR rs).toNat) ∨
        ∃ rd ra rla rb rlb, decode w = .ok (.ovlp rd ra rla rb rlb) ∧
          (2 ^ 64 < (s.readR ra).toNat + (s.readR rla).toNat ∨
            2 ^ 64 < (s.readR rb).toNat + (s.readR rlb).toNat))) ∨
    (t.code = 6 ∧
      ((∃ vd rs, decode w = .ok (.ldv vd rs) ∧ s.bufSize < (s.readR rs).toNat + 16) ∨
        (∃ va rs, decode w = .ok (.stv va rs) ∧ s.bufSize < (s.readR rs).toNat + 16) ∨
        (∃ vd rs rn, decode w = .ok (.absorb vd rs rn) ∧
          s.bufSize < (s.readR rs).toNat + (s.readR rn).toNat) ∨
        ∃ rd ra rb rn, decode w = .ok (.xorm rd ra rb rn) ∧
          (s.bufSize < (s.readR rd).toNat + (s.readR rn).toNat ∨
            s.bufSize < (s.readR ra).toNat + (s.readR rn).toNat ∨
            s.bufSize < (s.readR rb).toNat + (s.readR rn).toNat))) ∨
    (t.code = 7 ∧ ∃ rd ra rb rn, decode w = .ok (.xorm rd ra rb rn) ∧
      (inexactOverlap (s.readR rd).toNat (s.readR rn).toNat (s.readR ra).toNat (s.readR rn).toNat = true ∨
        inexactOverlap (s.readR rd).toNat (s.readR rn).toNat (s.readR rb).toNat (s.readR rn).toNat = true))

/-- R96: while FAULT = 1 an issued command changes no state; every transaction but HRESET leaves FAULT, CODE and
FCMD as they are; and the host's register and BUF transactions keep working, each answering what it answers in
the same state without the fault. -/
def Obligations.FaultIsStickyUntilReset : Prop :=
  (∀ (w : Word32) (s : State), s.fault = true → s.busy = false → hostStep (.issue w) s = .next s) ∧
    (∀ (x : HostTxn) (s t : State), s.fault = true → x ≠ .reset → hostStep x s = .next t →
      t.fault = true ∧ t.code = s.code ∧ t.fcmd = s.fcmd) ∧
    ∀ (x : HostTxn) (s u : State), (∀ w, x ≠ .issue w) → x ≠ .reset → x ≠ .rdStatus →
      hostStep x { s with fault := false } = .next u →
        hostStep x { s with fault := true } = .next { u with fault := true }

/-- The layout of STATUS (R22's fields): FAULT, TV, BUSY, CODE, and every other bit 0. -/
def Obligations.StatusRegisterLayout : Prop :=
  ∀ s : State,
    s.statusWord.getLsbD 0 = s.fault ∧ s.statusWord.getLsbD 1 = s.tv ∧ s.statusWord.getLsbD 2 = s.busy ∧
      s.statusWord.extractLsb' 3 5 = 0 ∧ s.statusWord.extractLsb' 8 8 = s.code ∧
      s.statusWord.extractLsb' 16 16 = 0

/-! ## The machine: steps, reset, invariants -/

/-- A step takes the host's next transaction, whichever it is, and answers what that transaction answers (R13,
R41). Issuing any word, legal or not, with a fault pending or not, runs it as `runCommand` says, with BUSY set
meanwhile and clear afterwards (R106). So a step whose next transaction issues a word that decodes, with FAULT = 0,
runs that command, and completes; and the command that the host places is the one issued next. (The list of
transactions is entry 2, BUSY within the step entry 1.) -/
def Obligations.StepRunsTheDecodedCommand : Prop :=
  (∀ (s : State) (x : HostTxn) (rest : List HostTxn), s.pending = x :: rest →
    step s = hostStep x { s with pending := rest }) ∧
  (∀ (s : State) (w : Word32), s.busy = false →
    ∃ t, runCommand w { s with busy := true } = .next t ∧ hostStep (.issue w) s = .next { t with busy := false }) ∧
  (∀ (s : State) (w : Word32) (rest : List HostTxn) (i : Instr),
    s.pending = .issue w :: rest → s.busy = false → s.fault = false → decode w = .ok i →
      ∃ t, exec i { s with pending := rest, busy := true } = .next t ∧ step s = .next { t with busy := false }) ∧
    ∀ (s : State) (w : Nat), (s.withFetchWord 32 w).pending = .issue (BitVec.ofNat 32 w) :: s.pending

/-- A block with no transaction to come is idle and keeps all state (R109, R13; entry 12). -/
def Obligations.IdleBlockKeepsItsState : Prop := ∀ s : State, s.pending = [] → step s = .next s

/-- R28: every piece of state after reset. BUF reads as the free draw, whatever that is
(entry 5). -/
def Obligations.ResetValues : Prop :=
  ∀ n d : Nat,
    let s := State.resetWith n d
    (∀ i, s.readV i = 0) ∧ (∀ i, s.readR i = 0) ∧ (∀ k, s.readTab k = ⟨0, 0⟩) ∧ s.tv = false ∧
      s.statusWord = 0 ∧ s.fault = false ∧ s.busy = false ∧ s.code = 0 ∧ s.fcmd = 0 ∧
      ∀ a, s.readByte a = Config.bufAtReset d a

/-- HRESET, whatever the block is doing, gives the reset state of the block, of the same BUF_SIZE, over the next
free draw (R110, U1; that the host's own lists stay is entry 3). -/
def Obligations.HostResetGivesTheResetState : Prop :=
  ∀ s : State, hostStep .reset s =
    .next { State.resetWith s.bufSize (s.draw + 1) with pending := s.pending, observed := s.observed }

/-- Every step keeps STATUS and FCMD consistent (R22, R23, R94). -/
def Obligations.StepKeepsStatusConsistent : Prop :=
  ∀ s t : State, StatusConsistent s → step s = .next t → StatusConsistent t

/-- Every step keeps TAB what TV says it is: the reset value, or the table of TAB[8] (R18, R19, R30). -/
def Obligations.StepKeepsTableConsistent : Prop :=
  ∀ s t : State, TableConsistent s → step s = .next t → TableConsistent t

/-- Every step keeps BUF's cells canonical and inside BUF, and BUF_SIZE legal (R7, R31, R36; the list of
cells is entry 6). -/
def Obligations.StepKeepsBufConsistent : Prop :=
  ∀ s t : State, BufConsistent s → step s = .next t → BufConsistent t

/-- The reset state of every legal BUF_SIZE meets the three invariants, and so does `State.reset`, whose BUF_SIZE
is the model's choice (entry 4). -/
def Obligations.ResetMeetsTheInvariants : Prop :=
  (∀ n d : Nat, 16 ≤ n → n ≤ 2 ^ 64 →
    StatusConsistent (State.resetWith n d) ∧ TableConsistent (State.resetWith n d) ∧
      BufConsistent (State.resetWith n d)) ∧
    StatusConsistent State.reset ∧ TableConsistent State.reset ∧ BufConsistent State.reset

/-- R19: BUILDTAB sets TV; nothing else writes it but reset, which clears it; STATUS.TV reads it; and while
TV = 1 in a consistent state TAB holds a table that BUILDTAB builds. -/
def Obligations.TableValidFlagWriters : Prop :=
  (∀ (va : VReg) (s : State), s.tv = false → ∃ t, exec (.buildtab va) s = .next t ∧ t.tv = true) ∧
    (∀ (x : HostTxn) (s t : State), hostStep x s = .next t → t.tv ≠ s.tv →
      (x = .reset ∧ t.tv = false) ∨ (t.tv = true ∧ ∃ w va, x = .issue w ∧ decode w = .ok (.buildtab va))) ∧
    (∀ s t : State, hostStep .reset s = .next t → t.tv = false) ∧
    (∀ s : State, s.statusWord.getLsbD 1 = s.tv) ∧
    ∀ s : State, TableConsistent s →
      (s.tv = true → ∃ h, s.tab = buildProductTable h) ∧ (s.tv = false → ∀ k, s.readTab k = ⟨0, 0⟩)

/-- R20: while TV = 1, TAB does not change but by a reset; BUILDTAB faults with E_TABLOCK. -/
def Obligations.TableIsFrozenWhileValid : Prop :=
  (∀ (x : HostTxn) (s t : State), s.tv = true → x ≠ .reset → hostStep x s = .next t →
    t.tab = s.tab ∧ t.tv = true) ∧
    ∀ (va : VReg) (s : State), s.tv = true → exec (.buildtab va) s = .next (faulted 3 (encode (.buildtab va)) s)

/-- The write columns of R27: what each command may change at all. -/
def Obligations.CommandsWriteOnlyTheirState : Prop :=
  ∀ (i : Instr) (s t : State), exec i s = .next t →
    (writesV i = false → SameV s t) ∧ (writesR i = false → SameR s t) ∧
      (writesTable i = false → SameTable s t) ∧ (writesBuf i = false → SameBuf s t) ∧
      (t.fault = s.fault → s.fault = false → SameStatus s t) ∧ t.busy = s.busy ∧ SameRest s t

/-- No command's outcome depends on a BUF byte that nothing has written, beyond the bytes it reads: over another
free draw a command whose every byte read has been written does the same (U1: "A claim must not depend on BUF
bytes that nothing has written since reset"; the draw is entry 5). -/
def Obligations.UnwrittenBytesDoNotMatter : Prop :=
  ∀ (i : Instr) (s t : State) (d : Nat), (∀ a, readsAddress s i a = true → Written s a) →
    exec i s = .next t → exec i (overDraw d s) = .next (overDraw d t)

/-- A run that has faulted keeps its first fault, its table and TV as long as the host does not reset
(R96, R113; runs are over the model's list of transactions, entry 2). -/
def Obligations.FailedRunKeepsItsFirstFault : Prop :=
  ∀ (n : Nat) (s t : State), Failed s → HostTxn.reset ∉ s.pending →
    Host.Core.run Sys2Proof.core n s = .next t →
      Failed t ∧ t.code = s.code ∧ t.fcmd = s.fcmd ∧ t.tab = s.tab ∧ t.tv = s.tv

/-! ## The host port (60_exceptions.md R106) -/

/-- The effects of the host-port transactions other than HISSUE and HRESET when they are admitted (R106); the
value a read returns is appended to the observation (R113; entry 2). -/
def Obligations.HostTransactionsTakeEffect : Prop :=
  ∀ s : State,
    (s.busy = false → ∀ (i : SReg) (x : Word64),
      ∃ t, hostStep (.wrR i x) s = .next t ∧ t.readR i = x ∧ OnlyR i s t) ∧
    (s.busy = false → ∀ i : SReg,
      hostStep (.rdR i) s = .next { s with observed := s.observed ++ [.scalar (s.readR i)] }) ∧
    (s.busy = false → ∀ (i : VReg) (b : Vector Byte 16),
      ∃ t, hostStep (.wrV i b) s = .next t ∧ Block.toBytes (t.readV i) = b.toList ∧ OnlyV i s t) ∧
    (s.busy = false → ∀ i : VReg,
      hostStep (.rdV i) s = .next { s with observed := s.observed ++ [.vector (Block.toBytes (s.readV i))] }) ∧
    (s.busy = false → ∀ (a : Nat) (b : Byte), a < s.bufSize →
      ∃ t, hostStep (.wrBuf a b) s = .next t ∧ t.readByte a = b ∧ OnlyBuf a 1 s t) ∧
    (s.busy = false → ∀ a : Nat, a < s.bufSize →
      hostStep (.rdBuf a) s = .next { s with observed := s.observed ++ [.byte (s.readByte a)] }) ∧
    hostStep .rdStatus s = .next { s with observed := s.observed ++ [.status s.statusWord] } ∧
    (s.busy = false → hostStep .rdFcmd s = .next { s with observed := s.observed ++ [.fcmd s.fcmd] })

/-- A transaction that is not admitted is refused by name: any but HRD_STATUS and HRESET while BUSY = 1 (U3), and
a BUF transaction at or above BUF_SIZE (U2). Nothing else is ever refused, and no step faults. -/
def Obligations.OnlyTransactionsNotAdmittedAreRefused : Prop :=
  (∀ (x : HostTxn) (s : State), s.busy = true → x ≠ .rdStatus → x ≠ .reset →
    hostStep x s = .refused .hostWhileBusy) ∧
    (∀ (a : Nat) (b : Byte) (s : State), s.busy = false → s.bufSize ≤ a →
      hostStep (.wrBuf a b) s = .refused .hostBufOutOfRange ∧
        hostStep (.rdBuf a) s = .refused .hostBufOutOfRange) ∧
    (∀ (x : HostTxn) (s : State), s.busy = false → (∀ a b, x = .wrBuf a b → a < s.bufSize) →
      (∀ a, x = .rdBuf a → a < s.bufSize) → ∃ t, hostStep x s = .next t) ∧
    ∀ (i : Instr) (s : State), ∃ t, exec i s = .next t

/-! ## The GF(2^128) unit (40_gf128.md) -/

/-- R62: the bit of the pair of words that holds each coefficient; equivalently, the 128-bit integer
low * 2^64 + high holds c_i at bit 127 - i. -/
def Obligations.CoefficientsStandInReversedBitOrder : Prop :=
  ∀ e : Elem,
    (∀ i, i < 64 → coeff e i = e.low.getLsbD (63 - i)) ∧
      (∀ i, 64 ≤ i → i < 128 → coeff e i = e.high.getLsbD (127 - i)) ∧
      (bytes e).toNat = e.low.toNat * 2 ^ 64 + e.high.toNat ∧
      ∀ i, i < 128 → coeff e i = (bytes e).getLsbD (127 - i)

/-- R63: the element of a 16-byte string is read big-endian, `low` from bytes 0..7 and `high` from bytes 8..15;
c_0 is byte 0, bit 7 and c_127 is byte 15, bit 0; elem and bytes are inverse. -/
def Obligations.ElementViewIsBigEndian : Prop :=
  (∀ b : Block, (elem b).low.toNat = beNat ((Block.toBytes b).take 8) ∧
    (elem b).high.toNat = beNat ((Block.toBytes b).drop 8) ∧
    coeff (elem b) 0 = (Block.byte b 0).getLsbD 7 ∧ coeff (elem b) 127 = (Block.byte b 15).getLsbD 0 ∧
    bytes (elem b) = b) ∧ ∀ e : Elem, elem (bytes e) = e

/-- R65: add is the XOR of both words, commutative, associative and self-inverse, and the byte-wise XOR of the two
16-byte strings. -/
def Obligations.AdditionIsExclusiveOr : Prop :=
  (∀ x y : Elem, gfAdd x y = ⟨x.low ^^^ y.low, x.high ^^^ y.high⟩) ∧ (∀ x y : Elem, gfAdd x y = gfAdd y x) ∧
    (∀ x y z : Elem, gfAdd (gfAdd x y) z = gfAdd x (gfAdd y z)) ∧ (∀ x : Elem, gfAdd x x = ⟨0, 0⟩) ∧
    ∀ (x y : Elem) (k : Nat), k < 16 →
      Block.byte (bytes (gfAdd x y)) k = Block.byte (bytes x) k ^^^ Block.byte (bytes y) k

/-- R64: doubling is multiplication by the polynomial x in the field, for every element: a right shift of the two words
by one bit, the bit leaving `low` entering `high` at the top, and 0xe100000000000000 folded into `low` when the bit
leaving `high` (the x^127 term) was 1. -/
def Obligations.DoubleIsTimesX : Prop :=
  ∀ e : Elem,
    FieldEq (toPoly (gfDouble e)) (Polynomial.X * toPoly e) ∧
      (gfDouble e).high.toNat = e.high.toNat / 2 + e.low.toNat % 2 * 2 ^ 63 ∧
      (gfDouble e).low = (if coeff e 127 then e.low >>> 1 ^^^ 0xe100000000000000 else e.low >>> 1)

/-- R68: RED[m], put at bits 48..63 of `low`, is the reduction of the terms that a 4-bit shift pushes past c_127; RED is
linear; and its sixteen values are those of the table. -/
def Obligations.ReductionTableReducesTheOverflow : Prop :=
  (∀ m : BitVec 4, FieldEq (toPoly ⟨(red m).setWidth 64 <<< 48, 0⟩) (overflowPoly m)) ∧
    (∀ m n : BitVec 4, red (m ^^^ n) = red m ^^^ red n) ∧
      (List.range 16).map (fun m => red (BitVec.ofNat 4 m)) =
        [0x0000, 0x1c20, 0x3840, 0x2460, 0x7080, 0x6ca0, 0x48c0, 0x54e0,
         0xe100, 0xfd20, 0xd940, 0xc560, 0x9180, 0x8da0, 0xa9c0, 0xb5e0]

/-- R66: the table of H holds zero at 0 and H at rev4(1) = 8; for each even i in 2..14 it holds the double of entry
rev4(i / 2) at rev4(i), and that plus H at rev4(i + 1); so it holds the field product of H with the polynomial whose
x^t coefficient is bit t of i at rev4(i), for every i in 0..15. -/
def Obligations.ProductTableHoldsTheMultiples : Prop :=
  ∀ h : Elem,
    (∀ i : BitVec 4, FieldEq (toPoly (tableEntry (buildProductTable h) (rev4 i))) (smallPoly i.toNat * toPoly h)) ∧
      tableEntry (buildProductTable h) 0 = ⟨0, 0⟩ ∧ tableEntry (buildProductTable h) 8 = h ∧
      ∀ i ∈ [2, 4, 6, 8, 10, 12, 14],
        tableEntry (buildProductTable h) (rev4 (BitVec.ofNat 4 i)) =
            gfDouble (tableEntry (buildProductTable h) (rev4 (BitVec.ofNat 4 (i / 2)))) ∧
          tableEntry (buildProductTable h) (rev4 (BitVec.ofNat 4 (i + 1))) =
            gfAdd (tableEntry (buildProductTable h) (rev4 (BitVec.ofNat 4 i))) h

/-- R70: the table-driven multiply is the field product y·H, for every y and H; the product is determined, since
elements of the field are told apart by their polynomials and those have degree below 128. -/
def Obligations.TableMultiplyIsTheFieldProduct : Prop :=
  (∀ y h : Elem, FieldEq (toPoly (mulH y (buildProductTable h))) (toPoly y * toPoly h)) ∧
    ∀ e f : Elem, FieldEq (toPoly e) (toPoly f) → e = f

/-- The multiply commutes: the table of H applied to y is the table of y applied to H (from R70; the check of
95_test_vectors.md L2.1.4). -/
def Obligations.TableMultiplyCommutes : Prop :=
  ∀ y h : Elem, mulH y (buildProductTable h) = mulH h (buildProductTable y)

/-- R71: no chunk, no change; a full 16-byte chunk is XORed in and multiplied before the rest; a final partial
chunk is zero-padded to 16 bytes before the same step. -/
def Obligations.AbsorbTakesChunksAndPads : Prop :=
  ∀ (acc : Elem) (t : Vector Elem 16),
    gfAbsorb acc [] t = acc ∧
      (∀ c rest : List Byte, c.length = 16 →
        gfAbsorb acc (c ++ rest) t = gfAbsorb (mulH (gfAdd acc (elem (Block.ofBytes c))) t) rest t) ∧
      ∀ c : List Byte, 0 < c.length → c.length < 16 →
        gfAbsorb acc c t = mulH (gfAdd acc (elem (Block.ofBytes (c ++ List.replicate (16 - c.length) 0)))) t

/-- Absorbing is polynomial evaluation at H by Horner's rule (R71's closing sentence, with R70): over m chunks c_k
the accumulator becomes acc·H^m + sum of c_k·H^(m-k). -/
def Obligations.AbsorbEvaluatesByHorner : Prop :=
  ∀ (acc h : Elem) (data : List Byte),
    let m := (data.length + 15) / 16
    FieldEq (toPoly (gfAbsorb acc data (buildProductTable h)))
      (toPoly acc * toPoly h ^ m +
        ∑ k ∈ Finset.range m, toPoly (elem (dataChunk data k)) * toPoly h ^ (m - k))

/-- GFADD completes in every state: every byte of V[vd] is the XOR of the sources' old bytes, and nothing else
changes (R72). -/
def Obligations.GfaddXorsItsSources : Prop :=
  ∀ (vd va vb : VReg) (s : State), ∃ t, exec (.gfadd vd va vb) s = .next t ∧
    (∀ k, k < 16 → Block.byte (t.readV vd) k = Block.byte (s.readV va) k ^^^ Block.byte (s.readV vb) k) ∧
    t.readV vd = bytes (gfAdd (elem (s.readV va)) (elem (s.readV vb))) ∧ OnlyV vd s t

/-- GFDBL completes in every state: V[vd] is the 128-bit number V[va] shifted right by one, with e1 00 .. 00 folded
in when its last bit was set, and nothing else changes (R73, R64). -/
def Obligations.GfdblDoublesItsSource : Prop :=
  ∀ (vd va : VReg) (s : State), ∃ t, exec (.gfdbl vd va) s = .next t ∧
    t.readV vd = s.readV va >>> 1 ^^^ (if (s.readV va).getLsbD 0 then 0xe1000000000000000000000000000000#128 else 0#128) ∧
    OnlyV vd s t

/-- RDTAB completes in every state, whatever TV is: V[vd] is TAB[idx], and nothing else changes; in a consistent
state TAB[0] reads as zero (R74, R18). -/
def Obligations.RdtabCopiesTheEntry : Prop :=
  ∀ (vd : VReg) (idx : TabIndex) (s : State), ∃ t, exec (.rdtab vd idx) s = .next t ∧
    t.readV vd = bytes (s.readTab idx) ∧ OnlyV vd s t ∧ (TableConsistent s → idx = 0 → t.readV vd = 0)

/-- BUILDTAB with TV = 0 completes: TAB becomes the table of H = elem(V[va]), so TAB[8] = H and TAB[0] = 0, TV
becomes 1, and nothing else changes; with TV = 1 it raises E_TABLOCK (R67). -/
def Obligations.BuildtabInstallsTheTable : Prop :=
  ∀ (va : VReg) (s : State),
    (s.tv = false → ∃ t, exec (.buildtab va) s = .next t ∧
      (∀ k, t.readTab k = tableEntry (buildProductTable (elem (s.readV va))) k) ∧
      t.readTab 8 = elem (s.readV va) ∧ t.readTab 0 = ⟨0, 0⟩ ∧ t.tv = true ∧ OnlyTable s t) ∧
    (s.tv = true → exec (.buildtab va) s = .next (faulted 3 (encode (.buildtab va)) s))

/-- GFMULH with TV = 1 completes, in a consistent state with the field product of V[va] and H = TAB[8], and changes
nothing but V[vd]; with TV = 0 it raises E_NOTAB (R75, R70). -/
def Obligations.GfmulhMultipliesByH : Prop :=
  ∀ (vd va : VReg) (s : State),
    (s.tv = true → ∃ t, exec (.gfmulh vd va) s = .next t ∧
      t.readV vd = bytes (mulH (elem (s.readV va)) s.tab) ∧ OnlyV vd s t ∧
      (TableConsistent s →
        FieldEq (toPoly (elem (t.readV vd))) (toPoly (elem (s.readV va)) * toPoly (s.readTab 8)))) ∧
    (s.tv = false → exec (.gfmulh vd va) s = .next (faulted 2 (encode (.gfmulh vd va)) s))

/-- ABSORB with a table and its range in BUF completes: V[vd] absorbs the n bytes of BUF at R[rs], and nothing else
changes; E_NOTAB when TV = 0, whatever the range, and E_BOUNDS when TV = 1 and the range passes BUF_SIZE; n = 0
leaves V[vd] as it was (R76, R97). -/
def Obligations.AbsorbFoldsTheRange : Prop :=
  ∀ (vd : VReg) (rs rn : SReg) (s : State),
    let a := (s.readR rs).toNat
    let n := (s.readR rn).toNat
    (s.tv = true → a + n ≤ s.bufSize → ∃ t, exec (.absorb vd rs rn) s = .next t ∧
      t.readV vd = bytes (gfAbsorb (elem (s.readV vd)) ((List.range n).map fun k => s.readByte (a + k)) s.tab) ∧
      (n = 0 → t.readV vd = s.readV vd) ∧ OnlyV vd s t) ∧
    (s.tv = false → exec (.absorb vd rs rn) s = .next (faulted 2 (encode (.absorb vd rs rn)) s)) ∧
    (s.tv = true → s.bufSize < a + n →
      exec (.absorb vd rs rn) s = .next (faulted 6 (encode (.absorb vd rs rn)) s))

/-! ## The counter unit (41_counter.md) -/

/-- CTRINIT with R[rn] = 12 completes: bytes 0..11 of V[vd] are the nonce's, bytes 12..15 are 00 00 00 01, and
nothing else changes; any other 64-bit length raises E_NONCE (R77). -/
def Obligations.CtrinitLoadsTheInitialCounter : Prop :=
  ∀ (vd va : VReg) (rn : SReg) (s : State),
    (s.readR rn = 12 → ∃ t, exec (.ctrinit vd va rn) s = .next t ∧
      Block.toBytes (t.readV vd) = (Block.toBytes (s.readV va)).take 12 ++ [0, 0, 0, 1] ∧ OnlyV vd s t) ∧
    (s.readR rn ≠ 12 → exec (.ctrinit vd va rn) s = .next (faulted 4 (encode (.ctrinit vd va rn)) s))

/-- R78: the last four bytes, read as a big-endian number, grow by 1 mod 2^32; the first twelve are untouched. -/
def Obligations.IncrementIsBigEndianMod32 : Prop :=
  ∀ s : Block, (Block.toBytes (inc32 s)).take 12 = (Block.toBytes s).take 12 ∧
    beNat ((Block.toBytes (inc32 s)).drop 12) = (beNat ((Block.toBytes s).drop 12) + 1) % 2 ^ 32

/-- INC32 completes in every state with no fault: V[vd] is the incremented V[va], and nothing else changes (R79,
R78). -/
def Obligations.Inc32AdvancesTheCounter : Prop :=
  ∀ (vd va : VReg) (s : State), ∃ t, exec (.inc32 vd va) s = .next t ∧
    (∀ k, k < 12 → Block.byte (t.readV vd) k = Block.byte (s.readV va) k) ∧
    beNat ((Block.toBytes (t.readV vd)).drop 12) = (beNat ((Block.toBytes (s.readV va)).drop 12) + 1) % 2 ^ 32 ∧
    OnlyV vd s t

/-- The keystream schedule (R80): message block i uses the counter block nonce ++ be32((2 + i) mod 2^32), which is
J0 incremented i + 1 times, however large i is (R81). -/
def Obligations.CounterScheduleStartsAtTwo : Prop :=
  ∀ (s : Block) (i : Nat),
    (Block.toBytes (inc32^[i + 1] (initialCounter s))).take 12 = (Block.toBytes s).take 12 ∧
      beNat ((Block.toBytes (inc32^[i + 1] (initialCounter s))).drop 12) = (2 + i) % 2 ^ 32

/-! ## The keystream combiner (42_keystream_xor.md) -/

/-- XORM whose three ranges lie in BUF and whose destination is, for each input, the same range or disjoint from it
(or n = 0) completes: byte i of the destination is the XOR of the inputs' old bytes i, and nothing else changes
(R82, R83). -/
def Obligations.XormCombinesTheRanges : Prop :=
  ∀ (rd ra rb rn : SReg) (s : State),
    let d := (s.readR rd).toNat
    let a := (s.readR ra).toNat
    let b := (s.readR rb).toNat
    let n := (s.readR rn).toNat
    d + n ≤ s.bufSize → a + n ≤ s.bufSize → b + n ≤ s.bufSize →
      (d = a ∨ d + n ≤ a ∨ a + n ≤ d ∨ n = 0) → (d = b ∨ d + n ≤ b ∨ b + n ≤ d ∨ n = 0) →
        ∃ t, exec (.xorm rd ra rb rn) s = .next t ∧
          (∀ i, i < n → t.readByte (d + i) = s.readByte (a + i) ^^^ s.readByte (b + i)) ∧ OnlyBuf d n s t

/-- XORM with a range past BUF_SIZE raises E_BOUNDS, whatever overlaps; with its ranges in BUF and a destination that
shares bytes with an input range without being that range it raises E_OVERLAP; either way no byte is written
(R82, R97, R99). -/
def Obligations.XormRefusesBadRanges : Prop :=
  ∀ (rd ra rb rn : SReg) (s : State),
    let d := (s.readR rd).toNat
    let a := (s.readR ra).toNat
    let b := (s.readR rb).toNat
    let n := (s.readR rn).toNat
    (s.bufSize < d + n ∨ s.bufSize < a + n ∨ s.bufSize < b + n →
      exec (.xorm rd ra rb rn) s = .next (faulted 6 (encode (.xorm rd ra rb rn)) s)) ∧
    (d + n ≤ s.bufSize → a + n ≤ s.bufSize → b + n ≤ s.bufSize →
      ((d ≠ a ∧ ∃ x, (d ≤ x ∧ x < d + n) ∧ a ≤ x ∧ x < a + n) ∨
        (d ≠ b ∧ ∃ x, (d ≤ x ∧ x < d + n) ∧ b ≤ x ∧ x < b + n)) →
      exec (.xorm rd ra rb rn) s = .next (faulted 7 (encode (.xorm rd ra rb rn)) s))

/-! ## The overlap detector (43_overlap.md) -/

/-- R85: anyOverlap is true iff the two ranges share at least one byte; so it is false when a range is empty, and it
is symmetric. -/
def Obligations.AnyOverlapMeansASharedByte : Prop :=
  (∀ s1 l1 s2 l2 : Nat, anyOverlap s1 l1 s2 l2 = true ↔
    ∃ x, (s1 ≤ x ∧ x < s1 + l1) ∧ s2 ≤ x ∧ x < s2 + l2) ∧
    (∀ s1 l1 s2 l2 : Nat, l1 = 0 ∨ l2 = 0 → anyOverlap s1 l1 s2 l2 = false) ∧
    ∀ s1 l1 s2 l2 : Nat, anyOverlap s1 l1 s2 l2 = anyOverlap s2 l2 s1 l1

/-- R86: inexactOverlap is true iff the ranges overlap and are not the same range; it is symmetric, and ranges of one
start and different nonzero lengths overlap inexactly. -/
def Obligations.InexactOverlapMeansNotIdentical : Prop :=
  (∀ s1 l1 s2 l2 : Nat, inexactOverlap s1 l1 s2 l2 = true ↔
    (∃ x, (s1 ≤ x ∧ x < s1 + l1) ∧ s2 ≤ x ∧ x < s2 + l2) ∧ ¬(s1 = s2 ∧ l1 = l2)) ∧
    (∀ s1 l1 s2 l2 : Nat, inexactOverlap s1 l1 s2 l2 = inexactOverlap s2 l2 s1 l1) ∧
    ∀ s l1 l2 : Nat, 0 < l1 → 0 < l2 → l1 ≠ l2 → inexactOverlap s l1 s l2 = true

/-- OVLP on ranges that end at or below 2^64 completes: R[rd] is 3 when they overlap inexactly, 1 when they are the
same nonempty range, 0 when they share no byte, and nothing else changes; past 2^64 it raises E_RANGE (R87,
R88). -/
def Obligations.OvlpReportsTheOverlap : Prop :=
  ∀ (rd ra rla rb rlb : SReg) (s : State),
    let s1 := (s.readR ra).toNat
    let l1 := (s.readR rla).toNat
    let s2 := (s.readR rb).toNat
    let l2 := (s.readR rlb).toNat
    (s1 + l1 ≤ 2 ^ 64 → s2 + l2 ≤ 2 ^ 64 → ∃ t, exec (.ovlp rd ra rla rb rlb) s = .next t ∧
      ((∃ x, (s1 ≤ x ∧ x < s1 + l1) ∧ s2 ≤ x ∧ x < s2 + l2) →
        (s1 = s2 ∧ l1 = l2 → t.readR rd = 1) ∧ (¬(s1 = s2 ∧ l1 = l2) → t.readR rd = 3)) ∧
      ((¬∃ x, (s1 ≤ x ∧ x < s1 + l1) ∧ s2 ≤ x ∧ x < s2 + l2) → t.readR rd = 0) ∧ OnlyR rd s t) ∧
    (2 ^ 64 < s1 + l1 ∨ 2 ^ 64 < s2 + l2 →
      exec (.ovlp rd ra rla rb rlb) s = .next (faulted 5 (encode (.ovlp rd ra rla rb rlb)) s))

/-! ## Utility commands and BUF (44_utility.md, 20_memory.md) -/

/-- R89: rev4 reverses the order of the four bits, and is its own inverse. -/
def Obligations.Rev4ReversesTheBits : Prop :=
  ∀ i : BitVec 4, (∀ k, k < 4 → (rev4 i).getLsbD k = i.getLsbD (3 - k)) ∧ rev4 (rev4 i) = i

/-- REV4 on 0..15 completes: R[rd] is the reversed number, its bits 63..4 zero, and nothing else changes; above 15 it
raises E_RANGE (R90). -/
def Obligations.Rev4CommandReversesOrFaults : Prop :=
  ∀ (rd rs : SReg) (s : State),
    ((s.readR rs).toNat ≤ 15 → ∃ t, exec (.rev4 rd rs) s = .next t ∧
      (∀ k, k < 4 → (t.readR rd).getLsbD k = (s.readR rs).getLsbD (3 - k)) ∧ (t.readR rd).toNat ≤ 15 ∧
      OnlyR rd s t) ∧
    (15 < (s.readR rs).toNat → exec (.rev4 rd rs) s = .next (faulted 5 (encode (.rev4 rd rs)) s))

/-- LDV of 16 bytes in BUF completes, at any alignment: byte k of V[vd] is BUF[a+k], and nothing else changes;
otherwise it raises E_BOUNDS (R91, R35, R36). -/
def Obligations.LdvLoadsSixteenBytes : Prop :=
  ∀ (vd : VReg) (rs : SReg) (s : State),
    let a := (s.readR rs).toNat
    (a + 16 ≤ s.bufSize → ∃ t, exec (.ldv vd rs) s = .next t ∧
      (∀ k, k < 16 → Block.byte (t.readV vd) k = s.readByte (a + k)) ∧ OnlyV vd s t) ∧
    (s.bufSize < a + 16 → exec (.ldv vd rs) s = .next (faulted 6 (encode (.ldv vd rs)) s))

/-- STV of 16 bytes in BUF completes, at any alignment: BUF[a+k] is byte k of V[va], and nothing else changes;
otherwise it raises E_BOUNDS and writes no byte (R92, R35, R36). -/
def Obligations.StvStoresSixteenBytes : Prop :=
  ∀ (va : VReg) (rs : SReg) (s : State),
    let a := (s.readR rs).toNat
    (a + 16 ≤ s.bufSize → ∃ t, exec (.stv va rs) s = .next t ∧
      (∀ k, k < 16 → t.readByte (a + k) = Block.byte (s.readV va) k) ∧ OnlyBuf a 16 s t) ∧
    (s.bufSize < a + 16 → exec (.stv va rs) s = .next (faulted 6 (encode (.stv va rs)) s))

/-- LDV after STV at one address gives the stored register back (R92's corner case, R41). -/
def Obligations.LoadAfterStoreGivesItBack : Prop :=
  ∀ (va vd : VReg) (rs : SReg) (s : State), (s.readR rs).toNat + 16 ≤ s.bufSize →
    ∃ t u, exec (.stv va rs) s = .next t ∧ exec (.ldv vd rs) t = .next u ∧ u.readV vd = s.readV va

/-- R93: NOP, the word 0x00000000, changes no state, whether or not a fault is pending; any other word with OP = 0
raises E_ILLEGAL. -/
def Obligations.NopChangesNothing : Prop :=
  (∀ s : State, exec .nop s = .next s ∧ runCommand 0x00000000 s = .next s) ∧
    ∀ (w : Word32) (s : State), s.fault = false → w.extractLsb' 26 6 = 0 → w.extractLsb' 0 26 ≠ 0 →
      runCommand w s = .next (faulted 1 w s)

/-- The pseudo-instructions do what R60 says they are for: CLRV clears, MOVV copies, neither faults; CTRSTART with a
12-byte nonce leaves the counter block of the first message block. -/
def Obligations.PseudoInstructionsExpand : Prop :=
  (∀ (vd : VReg) (s : State), ∃ t, RunsTo (pseudoClrv vd) s t ∧ t.readV vd = 0 ∧ OnlyV vd s t) ∧
    (∀ (vd va : VReg) (s : State), ∃ t, RunsTo (pseudoMovv vd va) s t ∧ t.readV vd = s.readV va ∧ OnlyV vd s t) ∧
    ∀ (vd va : VReg) (rn : SReg) (s : State), s.readR rn = 12 →
      ∃ t, RunsTo (pseudoCtrstart vd va rn) s t ∧
        Block.toBytes (t.readV vd) = (Block.toBytes (s.readV va)).take 12 ++ [0, 0, 0, 2] ∧ OnlyV vd s t
end

