-- ==== Sys2Proof/Laws/Bytes.lean ====
section
/-! SUPPORT. The laws of byte strings: a vector register is told by its bytes, a 16-byte string is the register of
its bytes, and the two views of a register are inverse (40_gf128.md R63). -/

namespace Sys2Proof.Machine

@[simp] theorem Block.toBytes_length (s : Block) : (Block.toBytes s).length = 16 := by simp [Block.toBytes]

theorem Block.toBytes_getElem (s : Block) (k : Nat) (h : k < (Block.toBytes s).length) :
    (Block.toBytes s)[k] = Block.byte s k := by simp [Block.toBytes]

theorem Block.byte_getLsbD (s : Block) (k j : Nat) :
    (Block.byte s k).getLsbD j = (decide (j < 8) && s.getLsbD (8 * (15 - k) + j)) := by
  simp [Block.byte]

/-- Bit 127 - i of a register is bit 7 - i % 8 of byte i / 8. -/
theorem Block.getLsbD_eq_byte (s : Block) (j : Nat) (h : j < 128) :
    s.getLsbD j = (Block.byte s (15 - j / 8)).getLsbD (j % 8) := by
  rw [Block.byte_getLsbD, show 8 * (15 - (15 - j / 8)) + j % 8 = j by omega]
  simp [Nat.mod_lt]

theorem Block.ext_bytes (s t : Block) (h : ∀ k, k < 16 → Block.byte s k = Block.byte t k) : s = t := by
  apply BitVec.eq_of_getLsbD_eq
  intro j hj
  rw [Block.getLsbD_eq_byte s j hj, Block.getLsbD_eq_byte t j hj, h _ (by omega)]

theorem Block.toBytes_injective (s t : Block) (h : Block.toBytes s = Block.toBytes t) : s = t := by
  apply Block.ext_bytes
  intro k hk
  rw [← Block.toBytes_getElem s k (by simpa), ← Block.toBytes_getElem t k (by simpa)]
  simp [h]

/-- The bits of a byte string appended, byte by byte, below a number. -/
theorem ofBytes_foldl_getLsbD (bs : List Byte) (acc : Block) (j : Nat) (hj : j < 128) :
    (bs.foldl (fun (acc : Block) b => acc <<< 8 ||| b.setWidth 128) acc).getLsbD j =
      if j < 8 * bs.length then (bs.getD (bs.length - 1 - j / 8) 0).getLsbD (j % 8)
      else acc.getLsbD (j - 8 * bs.length) := by
  induction bs generalizing acc with
  | nil => simp
  | cons b rest ih =>
    rw [List.foldl_cons, ih]
    simp only [List.length_cons]
    by_cases h1 : j < 8 * rest.length
    · rw [if_pos h1, if_pos (by omega), show rest.length + 1 - 1 - j / 8 = (rest.length - 1 - j / 8) + 1 by omega,
        List.getD_cons_succ]
    · rw [if_neg h1]
      by_cases h2 : j < 8 * (rest.length + 1)
      · rw [if_pos h2, show rest.length + 1 - 1 - j / 8 = 0 by omega, List.getD_cons_zero,
          show j % 8 = j - 8 * rest.length by omega]
        have h3 : j - 8 * rest.length < 8 := by omega
        simp [h3]
        omega
      · rw [if_neg h2, show j - 8 * (rest.length + 1) = j - 8 * rest.length - 8 by omega]
        have h3 : ¬ j - 8 * rest.length < 8 := by omega
        have h4 : j - 8 * rest.length < 128 := by omega
        have h5 : b.getLsbD (j - 8 * rest.length) = false := BitVec.getLsbD_of_ge _ _ (by omega)
        simp [h3, h4, h5]
        exact (BitVec.getLsbD_eq_getElem (by omega)).symm

theorem Block.byte_ofBytes (bs : List Byte) (h : bs.length = 16) (k : Nat) (hk : k < bs.length) :
    Block.byte (Block.ofBytes bs) k = bs[k] := by
  apply BitVec.eq_of_getLsbD_eq
  intro j hj
  rw [Block.byte_getLsbD, Block.ofBytes, ofBytes_foldl_getLsbD _ _ _ (by omega), if_pos (by omega)]
  rw [show bs.length - 1 - (8 * (15 - k) + j) / 8 = k by omega, show (8 * (15 - k) + j) % 8 = j by omega]
  simp [hj, List.getD_eq_getElem?_getD, hk]

theorem Block.toBytes_ofBytes (bs : List Byte) (h : bs.length = 16) : Block.toBytes (Block.ofBytes bs) = bs := by
  apply List.ext_getElem
  · simp [h]
  · intro k h1 h2
    rw [Block.toBytes_getElem, Block.byte_ofBytes bs h k h2]

theorem Block.ofBytes_toBytes (s : Block) : Block.ofBytes (Block.toBytes s) = s :=
  Block.toBytes_injective _ _ (Block.toBytes_ofBytes _ (Block.toBytes_length s))

/-- A big-endian number read byte by byte after a number. -/
theorem beNat_foldl (bs : List Byte) (acc : Nat) :
    bs.foldl (fun acc b => 256 * acc + b.toNat) acc = acc * 256 ^ bs.length + beNat bs := by
  induction bs generalizing acc with
  | nil => simp [beNat]
  | cons b rest ih =>
    rw [beNat, List.foldl_cons, List.foldl_cons, ih, ih (256 * 0 + b.toNat)]
    simp only [List.length_cons, pow_succ]
    ring

theorem beNat_cons (b : Byte) (rest : List Byte) : beNat (b :: rest) = b.toNat * 256 ^ rest.length + beNat rest := by
  rw [beNat, List.foldl_cons, beNat_foldl]
  simp

theorem bytes_elem_getLsbD (e : Elem) (j : Nat) :
    (bytes e).getLsbD j = if j < 64 then e.high.getLsbD j else e.low.getLsbD (j - 64) := by
  rw [show (bytes e).getLsbD j = (e.low ++ e.high : BitVec (64 + 64)).getLsbD j from rfl,
    BitVec.getLsbD_append]

theorem bytes_elem (b : Block) : bytes (elem b) = b := by
  apply BitVec.eq_of_getLsbD_eq
  intro j hj
  rw [bytes_elem_getLsbD]
  unfold elem
  split
  · simp_all
  · rw [BitVec.getLsbD_extractLsb', show 64 + (j - 64) = j by omega]
    simp [show j - 64 < 64 by omega]

theorem Block.byte_toNat (b : Block) (k : Nat) : (Block.byte b k).toNat = b.toNat / 2 ^ (8 * (15 - k)) % 256 := by
  simp [Block.byte, BitVec.extractLsb'_toNat, Nat.shiftRight_eq_div_pow]

theorem beNat_concat (bs : List Byte) (b : Byte) : beNat (bs ++ [b]) = 256 * beNat bs + b.toNat := by
  simp [beNat]

/-- The big-endian number of n bytes of a register from byte `off`. -/
theorem beNat_slice (b : Block) (off n : Nat) (h : off + n ≤ 16) :
    beNat ((List.range n).map fun k => Block.byte b (off + k)) =
      b.toNat / 2 ^ (8 * (16 - off - n)) % 2 ^ (8 * n) := by
  induction n with
  | zero => simp [beNat, Nat.mod_one]
  | succ n ih =>
    rw [List.range_succ, List.map_append, List.map_singleton, beNat_concat, ih (by omega), Block.byte_toNat,
      show 8 * (16 - off - n) = 8 * (15 - (off + n)) + 8 by omega,
      show 8 * (16 - off - (n + 1)) = 8 * (15 - (off + n)) by omega, pow_add, ← Nat.div_div_eq_div_mul,
      show 8 * (n + 1) = 8 + 8 * n by ring, pow_add, Nat.mod_mul]
    omega

theorem beNat_take (b : Block) (n : Nat) (h : n ≤ 16) :
    beNat ((Block.toBytes b).take n) = b.toNat / 2 ^ (8 * (16 - n)) := by
  have e : (Block.toBytes b).take n = (List.range n).map fun k => Block.byte b (0 + k) := by
    simp [Block.toBytes, ← List.map_take, List.take_range, h]
  rw [e, beNat_slice b 0 n (by omega), Nat.mod_eq_of_lt]
  rw [Nat.div_lt_iff_lt_mul (by positivity), ← pow_add, show 8 * n + 8 * (16 - 0 - n) = 128 by omega]
  exact b.isLt

theorem beNat_drop (b : Block) (n : Nat) (h : n ≤ 16) :
    beNat ((Block.toBytes b).drop n) = b.toNat % 2 ^ (8 * (16 - n)) := by
  have e : (Block.toBytes b).drop n = (List.range (16 - n)).map fun k => Block.byte b (n + k) := by
    apply List.ext_getElem
    · simp
    · intro i h1 h2
      simp [Block.toBytes]
  rw [e, beNat_slice b n (16 - n) (by omega)]
  simp

end Sys2Proof.Machine
end

