-- ==== Sys2Proof/Laws/Decode.lean ====
section
/-! SUPPORT. The laws of the word's fields: each field as arithmetic on the word's number, the reserved bits as a
remainder, and the fields of an assembled word (30_encoding.md R47, R48). -/

namespace Sys2Proof

theorem fieldOP_eq (w : Word32) : fieldOP w = w.toNat / 2 ^ 26 % 64 := by
  simp [fieldOP, BitVec.extractLsb'_toNat, Nat.shiftRight_eq_div_pow]

theorem fieldF1_val (w : Word32) : (fieldF1 w).val = w.toNat / 2 ^ 23 % 8 := by
  simp [fieldF1, BitVec.extractLsb'_toNat, Nat.shiftRight_eq_div_pow]

theorem fieldF2_val (w : Word32) : (fieldF2 w).val = w.toNat / 2 ^ 20 % 8 := by
  simp [fieldF2, BitVec.extractLsb'_toNat, Nat.shiftRight_eq_div_pow]

theorem fieldF3_val (w : Word32) : (fieldF3 w).val = w.toNat / 2 ^ 17 % 8 := by
  simp [fieldF3, BitVec.extractLsb'_toNat, Nat.shiftRight_eq_div_pow]

theorem fieldF4_val (w : Word32) : (fieldF4 w).val = w.toNat / 2 ^ 14 % 8 := by
  simp [fieldF4, BitVec.extractLsb'_toNat, Nat.shiftRight_eq_div_pow]

theorem fieldF5_val (w : Word32) : (fieldF5 w).val = w.toNat / 2 ^ 11 % 8 := by
  simp [fieldF5, BitVec.extractLsb'_toNat, Nat.shiftRight_eq_div_pow]

theorem fieldIDX_toNat (w : Word32) : (fieldIDX w).toNat = w.toNat / 2 ^ 19 % 16 := by
  simp [fieldIDX, BitVec.extractLsb'_toNat, Nat.shiftRight_eq_div_pow]

/-- How many low bits a format reserves: its reserved bits are exactly those (R48). -/
def Format.reservedBits : Format → Nat
  | .n => 26
  | .r1 => 23
  | .r2 => 20
  | .r3 => 17
  | .r4 => 14
  | .r5 => 11
  | .t => 19

theorem and_low_mask (w : Word32) (k : Nat) (hk : k ≤ 32) :
    w &&& BitVec.ofNat 32 (2 ^ k - 1) = 0 ↔ w.toNat % 2 ^ k = 0 := by
  have h1 : 2 ^ k ≤ 2 ^ 32 := Nat.pow_le_pow_right (by norm_num) hk
  have h2 : 0 < 2 ^ k := Nat.two_pow_pos k
  rw [← BitVec.toNat_inj, BitVec.toNat_and, BitVec.toNat_ofNat, Nat.mod_eq_of_lt (by omega),
    Nat.and_two_pow_sub_one_eq_mod]
  simp

/-- The reserved bits of a word are all 0 iff its number is a multiple of a power of two. -/
theorem reservedMask_iff (fmt : Format) (w : Word32) :
    w &&& fmt.reservedMask = 0 ↔ w.toNat % 2 ^ fmt.reservedBits = 0 := by
  cases fmt
  · exact and_low_mask w 26 (by norm_num)
  · exact and_low_mask w 23 (by norm_num)
  · exact and_low_mask w 20 (by norm_num)
  · exact and_low_mask w 17 (by norm_num)
  · exact and_low_mask w 14 (by norm_num)
  · exact and_low_mask w 11 (by norm_num)
  · exact and_low_mask w 19 (by norm_num)

/-- A word's number is the sum of its fields at their places and of what lies below F5. -/
theorem word_sum_of_fields (n : Nat) (h : n < 2 ^ 32) :
    n = n / 2 ^ 26 % 64 * 2 ^ 26 + n / 2 ^ 23 % 8 * 2 ^ 23 + n / 2 ^ 20 % 8 * 2 ^ 20 + n / 2 ^ 17 % 8 * 2 ^ 17 +
      n / 2 ^ 14 % 8 * 2 ^ 14 + n / 2 ^ 11 % 8 * 2 ^ 11 + n % 2 ^ 11 := by
  have h1 : n / 2 ^ 14 = n / 2 ^ 11 / 8 := (Nat.div_div_eq_div_mul n (2 ^ 11) 8).symm
  have h2 : n / 2 ^ 17 = n / 2 ^ 14 / 8 := (Nat.div_div_eq_div_mul n (2 ^ 14) 8).symm
  have h3 : n / 2 ^ 20 = n / 2 ^ 17 / 8 := (Nat.div_div_eq_div_mul n (2 ^ 17) 8).symm
  have h4 : n / 2 ^ 23 = n / 2 ^ 20 / 8 := (Nat.div_div_eq_div_mul n (2 ^ 20) 8).symm
  have h5 : n / 2 ^ 26 = n / 2 ^ 23 / 8 := (Nat.div_div_eq_div_mul n (2 ^ 23) 8).symm
  have h0 : n / 2 ^ 26 % 64 = n / 2 ^ 26 := by omega
  have e0 := Nat.div_add_mod n (2 ^ 11)
  have e1 := Nat.div_add_mod (n / 2 ^ 11) 8
  have e2 := Nat.div_add_mod (n / 2 ^ 14) 8
  have e3 := Nat.div_add_mod (n / 2 ^ 17) 8
  have e4 := Nat.div_add_mod (n / 2 ^ 20) 8
  have e5 := Nat.div_add_mod (n / 2 ^ 23) 8
  rw [← h1] at e1
  rw [← h2] at e2
  rw [← h3] at e3
  rw [← h4] at e4
  rw [← h5] at e5
  rw [h0]
  linarith

/-- Where the low bits of a word are 0, so is every field among them. -/
theorem field_zero_of_low_zero (n k j : Nat) (h : n % 2 ^ k = 0) (hj : j + 3 ≤ k) : n / 2 ^ j % 8 = 0 := by
  obtain ⟨c, hc⟩ := Nat.dvd_of_mod_eq_zero h
  have hk : 2 ^ k = 2 ^ j * (8 * 2 ^ (k - j - 3)) := by
    rw [show (8 : Nat) = 2 ^ 3 from rfl, ← pow_add, ← pow_add]
    congr 1
    omega
  rw [hc, hk, Nat.mul_assoc, Nat.mul_div_cancel_left _ (Nat.two_pow_pos j), Nat.mul_assoc, Nat.mul_mod_right]

theorem low_zero_of_low_zero (n k j : Nat) (h : n % 2 ^ k = 0) (hj : j ≤ k) : n % 2 ^ j = 0 :=
  Nat.mod_eq_zero_of_dvd ((Nat.pow_dvd_pow 2 hj).trans (Nat.dvd_of_mod_eq_zero h))

/-- What a word that decodes is made of. -/
theorem decode_ok_iff (w : Word32) (i : Instr) :
    decode w = .ok i ↔ ∃ fmt, commandOf (fieldOP w) w = some (fmt, i) ∧ w.toNat % 2 ^ fmt.reservedBits = 0 := by
  unfold decode opcodeMap
  cases h : commandOf (fieldOP w) w with
  | none => simp
  | some p =>
    obtain ⟨fmt, j⟩ := p
    by_cases hr : w &&& fmt.reservedMask = 0
    · simp [hr, (reservedMask_iff fmt w).mp hr]
    · have hr' : ¬w.toNat % 2 ^ fmt.reservedBits = 0 := fun e => hr ((reservedMask_iff fmt w).mpr e)
      simp only [hr, if_false]
      constructor
      · intro h
        cases h
      · rintro ⟨f, hf, h0⟩
        cases hf
        exact absurd h0 hr'

/-- The number of an assembled word. -/
theorem assembleFields_toNat (op f1 f2 f3 f4 f5 : Nat) (h0 : op < 64) (h1 : f1 < 8) (h2 : f2 < 8) (h3 : f3 < 8)
    (h4 : f4 < 8) (h5 : f5 < 8) :
    (assembleFields op f1 f2 f3 f4 f5).toNat =
      op * 2 ^ 26 + f1 * 2 ^ 23 + f2 * 2 ^ 20 + f3 * 2 ^ 17 + f4 * 2 ^ 14 + f5 * 2 ^ 11 := by
  simp only [assembleFields, BitVec.toNat_ofNat]
  omega

theorem assembleT_toNat (op f1 idx : Nat) (h0 : op < 64) (h1 : f1 < 8) (h2 : idx < 16) :
    (assembleT op f1 idx).toNat = op * 2 ^ 26 + f1 * 2 ^ 23 + idx * 2 ^ 19 := by
  simp only [assembleT, BitVec.toNat_ofNat]
  omega

/-- The fields of an assembled word are the ones it was assembled from. -/
theorem assembleFields_fields (op f1 f2 f3 f4 f5 : Nat) (h0 : op < 64) (h1 : f1 < 8) (h2 : f2 < 8) (h3 : f3 < 8)
    (h4 : f4 < 8) (h5 : f5 < 8) :
    let w := assembleFields op f1 f2 f3 f4 f5
    fieldOP w = op ∧ fieldF1 w = ⟨f1, h1⟩ ∧ fieldF2 w = ⟨f2, h2⟩ ∧ fieldF3 w = ⟨f3, h3⟩ ∧ fieldF4 w = ⟨f4, h4⟩ ∧
      fieldF5 w = ⟨f5, h5⟩ := by
  intro w
  have hw := assembleFields_toNat op f1 f2 f3 f4 f5 h0 h1 h2 h3 h4 h5
  refine ⟨?_, Fin.ext ?_, Fin.ext ?_, Fin.ext ?_, Fin.ext ?_, Fin.ext ?_⟩
  · rw [fieldOP_eq, hw]
    omega
  · rw [fieldF1_val, hw]
    dsimp only
    omega
  · rw [fieldF2_val, hw]
    dsimp only
    omega
  · rw [fieldF3_val, hw]
    dsimp only
    omega
  · rw [fieldF4_val, hw]
    dsimp only
    omega
  · rw [fieldF5_val, hw]
    dsimp only
    omega

theorem assembleT_fields (op f1 idx : Nat) (h0 : op < 64) (h1 : f1 < 8) (h2 : idx < 16) :
    let w := assembleT op f1 idx
    fieldOP w = op ∧ fieldF1 w = ⟨f1, h1⟩ ∧ (fieldIDX w).toNat = idx := by
  intro w
  have hw := assembleT_toNat op f1 idx h0 h1 h2
  refine ⟨?_, Fin.ext ?_, ?_⟩
  · rw [fieldOP_eq, hw]
    omega
  · rw [fieldF1_val, hw]
    dsimp only
    omega
  · rw [fieldIDX_toNat, hw]
    omega

end Sys2Proof
end

