-- ==== Sys2Proof/Laws/State.lean ====
section
/-! SUPPORT. The small lemmas of the state's updates: one per field and update, each true by definition, so that
no proof unfolds a record update. -/

namespace Sys2Proof.Machine

/-! ## writeV -/

@[simp] theorem writeV_v (s : State) (i : VReg) (b : Block) : (s.writeV i b).v = s.v.set i b := rfl
@[simp] theorem writeV_r (s : State) (i : VReg) (b : Block) : (s.writeV i b).r = s.r := rfl
@[simp] theorem writeV_tab (s : State) (i : VReg) (b : Block) : (s.writeV i b).tab = s.tab := rfl
@[simp] theorem writeV_tv (s : State) (i : VReg) (b : Block) : (s.writeV i b).tv = s.tv := rfl
@[simp] theorem writeV_fault (s : State) (i : VReg) (b : Block) : (s.writeV i b).fault = s.fault := rfl
@[simp] theorem writeV_busy (s : State) (i : VReg) (b : Block) : (s.writeV i b).busy = s.busy := rfl
@[simp] theorem writeV_code (s : State) (i : VReg) (b : Block) : (s.writeV i b).code = s.code := rfl
@[simp] theorem writeV_fcmd (s : State) (i : VReg) (b : Block) : (s.writeV i b).fcmd = s.fcmd := rfl
@[simp] theorem writeV_buf (s : State) (i : VReg) (b : Block) : (s.writeV i b).buf = s.buf := rfl
@[simp] theorem writeV_bufSize (s : State) (i : VReg) (b : Block) : (s.writeV i b).bufSize = s.bufSize := rfl
@[simp] theorem writeV_draw (s : State) (i : VReg) (b : Block) : (s.writeV i b).draw = s.draw := rfl
@[simp] theorem writeV_pending (s : State) (i : VReg) (b : Block) : (s.writeV i b).pending = s.pending := rfl
@[simp] theorem writeV_observed (s : State) (i : VReg) (b : Block) : (s.writeV i b).observed = s.observed := rfl
@[simp] theorem writeV_readR (s : State) (i : VReg) (b : Block) (j : SReg) : (s.writeV i b).readR j = s.readR j := rfl
@[simp] theorem writeV_readTab (s : State) (i : VReg) (b : Block) (k : TabIndex) : (s.writeV i b).readTab k = s.readTab k := rfl
@[simp] theorem writeV_readByte (s : State) (i : VReg) (b : Block) (a' : Nat) : (s.writeV i b).readByte a' = s.readByte a' := rfl
@[simp] theorem writeV_admitted (s : State) (i : VReg) (b : Block) (a' n : Nat) : (s.writeV i b).admitted a' n = s.admitted a' n := rfl
@[simp] theorem writeV_memRead (s : State) (i : VReg) (b : Block) (a' n : Nat) : (s.writeV i b).memRead a' n = s.memRead a' n := rfl
@[simp] theorem writeV_number (s : State) (i : VReg) (b : Block) (j : SReg) : (s.writeV i b).number j = s.number j := rfl

/-! ## writeR -/

@[simp] theorem writeR_v (s : State) (i : SReg) (x : Word64) : (s.writeR i x).v = s.v := rfl
@[simp] theorem writeR_r (s : State) (i : SReg) (x : Word64) : (s.writeR i x).r = s.r.set i x := rfl
@[simp] theorem writeR_tab (s : State) (i : SReg) (x : Word64) : (s.writeR i x).tab = s.tab := rfl
@[simp] theorem writeR_tv (s : State) (i : SReg) (x : Word64) : (s.writeR i x).tv = s.tv := rfl
@[simp] theorem writeR_fault (s : State) (i : SReg) (x : Word64) : (s.writeR i x).fault = s.fault := rfl
@[simp] theorem writeR_busy (s : State) (i : SReg) (x : Word64) : (s.writeR i x).busy = s.busy := rfl
@[simp] theorem writeR_code (s : State) (i : SReg) (x : Word64) : (s.writeR i x).code = s.code := rfl
@[simp] theorem writeR_fcmd (s : State) (i : SReg) (x : Word64) : (s.writeR i x).fcmd = s.fcmd := rfl
@[simp] theorem writeR_buf (s : State) (i : SReg) (x : Word64) : (s.writeR i x).buf = s.buf := rfl
@[simp] theorem writeR_bufSize (s : State) (i : SReg) (x : Word64) : (s.writeR i x).bufSize = s.bufSize := rfl
@[simp] theorem writeR_draw (s : State) (i : SReg) (x : Word64) : (s.writeR i x).draw = s.draw := rfl
@[simp] theorem writeR_pending (s : State) (i : SReg) (x : Word64) : (s.writeR i x).pending = s.pending := rfl
@[simp] theorem writeR_observed (s : State) (i : SReg) (x : Word64) : (s.writeR i x).observed = s.observed := rfl
@[simp] theorem writeR_readV (s : State) (i : SReg) (x : Word64) (j : VReg) : (s.writeR i x).readV j = s.readV j := rfl
@[simp] theorem writeR_readTab (s : State) (i : SReg) (x : Word64) (k : TabIndex) : (s.writeR i x).readTab k = s.readTab k := rfl
@[simp] theorem writeR_readByte (s : State) (i : SReg) (x : Word64) (a' : Nat) : (s.writeR i x).readByte a' = s.readByte a' := rfl
@[simp] theorem writeR_admitted (s : State) (i : SReg) (x : Word64) (a' n : Nat) : (s.writeR i x).admitted a' n = s.admitted a' n := rfl
@[simp] theorem writeR_memRead (s : State) (i : SReg) (x : Word64) (a' n : Nat) : (s.writeR i x).memRead a' n = s.memRead a' n := rfl

/-! ## installTable -/

@[simp] theorem installTable_v (s : State) (t : Vector Elem 16) : (s.installTable t).v = s.v := rfl
@[simp] theorem installTable_r (s : State) (t : Vector Elem 16) : (s.installTable t).r = s.r := rfl
@[simp] theorem installTable_tab (s : State) (t : Vector Elem 16) : (s.installTable t).tab = t := rfl
@[simp] theorem installTable_tv (s : State) (t : Vector Elem 16) : (s.installTable t).tv = true := rfl
@[simp] theorem installTable_fault (s : State) (t : Vector Elem 16) : (s.installTable t).fault = s.fault := rfl
@[simp] theorem installTable_busy (s : State) (t : Vector Elem 16) : (s.installTable t).busy = s.busy := rfl
@[simp] theorem installTable_code (s : State) (t : Vector Elem 16) : (s.installTable t).code = s.code := rfl
@[simp] theorem installTable_fcmd (s : State) (t : Vector Elem 16) : (s.installTable t).fcmd = s.fcmd := rfl
@[simp] theorem installTable_buf (s : State) (t : Vector Elem 16) : (s.installTable t).buf = s.buf := rfl
@[simp] theorem installTable_bufSize (s : State) (t : Vector Elem 16) : (s.installTable t).bufSize = s.bufSize := rfl
@[simp] theorem installTable_draw (s : State) (t : Vector Elem 16) : (s.installTable t).draw = s.draw := rfl
@[simp] theorem installTable_pending (s : State) (t : Vector Elem 16) : (s.installTable t).pending = s.pending := rfl
@[simp] theorem installTable_observed (s : State) (t : Vector Elem 16) : (s.installTable t).observed = s.observed := rfl
@[simp] theorem installTable_readV (s : State) (t : Vector Elem 16) (j : VReg) : (s.installTable t).readV j = s.readV j := rfl
@[simp] theorem installTable_readR (s : State) (t : Vector Elem 16) (j : SReg) : (s.installTable t).readR j = s.readR j := rfl
@[simp] theorem installTable_readByte (s : State) (t : Vector Elem 16) (a' : Nat) : (s.installTable t).readByte a' = s.readByte a' := rfl
@[simp] theorem installTable_admitted (s : State) (t : Vector Elem 16) (a' n : Nat) : (s.installTable t).admitted a' n = s.admitted a' n := rfl
@[simp] theorem installTable_memRead (s : State) (t : Vector Elem 16) (a' n : Nat) : (s.installTable t).memRead a' n = s.memRead a' n := rfl
@[simp] theorem installTable_number (s : State) (t : Vector Elem 16) (j : SReg) : (s.installTable t).number j = s.number j := rfl

/-! ## writeByte -/

@[simp] theorem writeByte_v (s : State) (a : Nat) (b : Byte) : (s.writeByte a b).v = s.v := rfl
@[simp] theorem writeByte_r (s : State) (a : Nat) (b : Byte) : (s.writeByte a b).r = s.r := rfl
@[simp] theorem writeByte_tab (s : State) (a : Nat) (b : Byte) : (s.writeByte a b).tab = s.tab := rfl
@[simp] theorem writeByte_tv (s : State) (a : Nat) (b : Byte) : (s.writeByte a b).tv = s.tv := rfl
@[simp] theorem writeByte_fault (s : State) (a : Nat) (b : Byte) : (s.writeByte a b).fault = s.fault := rfl
@[simp] theorem writeByte_busy (s : State) (a : Nat) (b : Byte) : (s.writeByte a b).busy = s.busy := rfl
@[simp] theorem writeByte_code (s : State) (a : Nat) (b : Byte) : (s.writeByte a b).code = s.code := rfl
@[simp] theorem writeByte_fcmd (s : State) (a : Nat) (b : Byte) : (s.writeByte a b).fcmd = s.fcmd := rfl
@[simp] theorem writeByte_buf (s : State) (a : Nat) (b : Byte) : (s.writeByte a b).buf = Memory.put s.buf a b := rfl
@[simp] theorem writeByte_bufSize (s : State) (a : Nat) (b : Byte) : (s.writeByte a b).bufSize = s.bufSize := rfl
@[simp] theorem writeByte_draw (s : State) (a : Nat) (b : Byte) : (s.writeByte a b).draw = s.draw := rfl
@[simp] theorem writeByte_pending (s : State) (a : Nat) (b : Byte) : (s.writeByte a b).pending = s.pending := rfl
@[simp] theorem writeByte_observed (s : State) (a : Nat) (b : Byte) : (s.writeByte a b).observed = s.observed := rfl
@[simp] theorem writeByte_readV (s : State) (a : Nat) (b : Byte) (j : VReg) : (s.writeByte a b).readV j = s.readV j := rfl
@[simp] theorem writeByte_readR (s : State) (a : Nat) (b : Byte) (j : SReg) : (s.writeByte a b).readR j = s.readR j := rfl
@[simp] theorem writeByte_readTab (s : State) (a : Nat) (b : Byte) (k : TabIndex) : (s.writeByte a b).readTab k = s.readTab k := rfl
@[simp] theorem writeByte_admitted (s : State) (a : Nat) (b : Byte) (a' n : Nat) : (s.writeByte a b).admitted a' n = s.admitted a' n := rfl
@[simp] theorem writeByte_number (s : State) (a : Nat) (b : Byte) (j : SReg) : (s.writeByte a b).number j = s.number j := rfl

/-! ## memWrite -/

@[simp] theorem memWrite_v (s : State) (a : Nat) (bs : List Byte) : (s.memWrite a bs).v = s.v := rfl
@[simp] theorem memWrite_r (s : State) (a : Nat) (bs : List Byte) : (s.memWrite a bs).r = s.r := rfl
@[simp] theorem memWrite_tab (s : State) (a : Nat) (bs : List Byte) : (s.memWrite a bs).tab = s.tab := rfl
@[simp] theorem memWrite_tv (s : State) (a : Nat) (bs : List Byte) : (s.memWrite a bs).tv = s.tv := rfl
@[simp] theorem memWrite_fault (s : State) (a : Nat) (bs : List Byte) : (s.memWrite a bs).fault = s.fault := rfl
@[simp] theorem memWrite_busy (s : State) (a : Nat) (bs : List Byte) : (s.memWrite a bs).busy = s.busy := rfl
@[simp] theorem memWrite_code (s : State) (a : Nat) (bs : List Byte) : (s.memWrite a bs).code = s.code := rfl
@[simp] theorem memWrite_fcmd (s : State) (a : Nat) (bs : List Byte) : (s.memWrite a bs).fcmd = s.fcmd := rfl
@[simp] theorem memWrite_buf (s : State) (a : Nat) (bs : List Byte) : (s.memWrite a bs).buf = Memory.putAll s.buf a bs := rfl
@[simp] theorem memWrite_bufSize (s : State) (a : Nat) (bs : List Byte) : (s.memWrite a bs).bufSize = s.bufSize := rfl
@[simp] theorem memWrite_draw (s : State) (a : Nat) (bs : List Byte) : (s.memWrite a bs).draw = s.draw := rfl
@[simp] theorem memWrite_pending (s : State) (a : Nat) (bs : List Byte) : (s.memWrite a bs).pending = s.pending := rfl
@[simp] theorem memWrite_observed (s : State) (a : Nat) (bs : List Byte) : (s.memWrite a bs).observed = s.observed := rfl
@[simp] theorem memWrite_readV (s : State) (a : Nat) (bs : List Byte) (j : VReg) : (s.memWrite a bs).readV j = s.readV j := rfl
@[simp] theorem memWrite_readR (s : State) (a : Nat) (bs : List Byte) (j : SReg) : (s.memWrite a bs).readR j = s.readR j := rfl
@[simp] theorem memWrite_readTab (s : State) (a : Nat) (bs : List Byte) (k : TabIndex) : (s.memWrite a bs).readTab k = s.readTab k := rfl
@[simp] theorem memWrite_admitted (s : State) (a : Nat) (bs : List Byte) (a' n : Nat) : (s.memWrite a bs).admitted a' n = s.admitted a' n := rfl
@[simp] theorem memWrite_number (s : State) (a : Nat) (bs : List Byte) (j : SReg) : (s.memWrite a bs).number j = s.number j := rfl

/-! ## raiseFault -/

@[simp] theorem raiseFault_v (c : FaultCode) (w : Word32) (s : State) : (raiseFault c w s).v = s.v := rfl
@[simp] theorem raiseFault_r (c : FaultCode) (w : Word32) (s : State) : (raiseFault c w s).r = s.r := rfl
@[simp] theorem raiseFault_tab (c : FaultCode) (w : Word32) (s : State) : (raiseFault c w s).tab = s.tab := rfl
@[simp] theorem raiseFault_tv (c : FaultCode) (w : Word32) (s : State) : (raiseFault c w s).tv = s.tv := rfl
@[simp] theorem raiseFault_fault (c : FaultCode) (w : Word32) (s : State) : (raiseFault c w s).fault = true := rfl
@[simp] theorem raiseFault_busy (c : FaultCode) (w : Word32) (s : State) : (raiseFault c w s).busy = s.busy := rfl
@[simp] theorem raiseFault_code (c : FaultCode) (w : Word32) (s : State) : (raiseFault c w s).code = c.number := rfl
@[simp] theorem raiseFault_fcmd (c : FaultCode) (w : Word32) (s : State) : (raiseFault c w s).fcmd = w := rfl
@[simp] theorem raiseFault_buf (c : FaultCode) (w : Word32) (s : State) : (raiseFault c w s).buf = s.buf := rfl
@[simp] theorem raiseFault_bufSize (c : FaultCode) (w : Word32) (s : State) : (raiseFault c w s).bufSize = s.bufSize := rfl
@[simp] theorem raiseFault_draw (c : FaultCode) (w : Word32) (s : State) : (raiseFault c w s).draw = s.draw := rfl
@[simp] theorem raiseFault_pending (c : FaultCode) (w : Word32) (s : State) : (raiseFault c w s).pending = s.pending := rfl
@[simp] theorem raiseFault_observed (c : FaultCode) (w : Word32) (s : State) : (raiseFault c w s).observed = s.observed := rfl
@[simp] theorem raiseFault_readV (c : FaultCode) (w : Word32) (s : State) (j : VReg) : (raiseFault c w s).readV j = s.readV j := rfl
@[simp] theorem raiseFault_readR (c : FaultCode) (w : Word32) (s : State) (j : SReg) : (raiseFault c w s).readR j = s.readR j := rfl
@[simp] theorem raiseFault_readTab (c : FaultCode) (w : Word32) (s : State) (k : TabIndex) : (raiseFault c w s).readTab k = s.readTab k := rfl
@[simp] theorem raiseFault_readByte (c : FaultCode) (w : Word32) (s : State) (a' : Nat) : (raiseFault c w s).readByte a' = s.readByte a' := rfl
@[simp] theorem raiseFault_admitted (c : FaultCode) (w : Word32) (s : State) (a' n : Nat) : (raiseFault c w s).admitted a' n = s.admitted a' n := rfl
@[simp] theorem raiseFault_memRead (c : FaultCode) (w : Word32) (s : State) (a' n : Nat) : (raiseFault c w s).memRead a' n = s.memRead a' n := rfl
@[simp] theorem raiseFault_number (c : FaultCode) (w : Word32) (s : State) (j : SReg) : (raiseFault c w s).number j = s.number j := rfl

/-! ## observe -/

@[simp] theorem observe_v (s : State) (x : HostValue) : (s.observe x).v = s.v := rfl
@[simp] theorem observe_r (s : State) (x : HostValue) : (s.observe x).r = s.r := rfl
@[simp] theorem observe_tab (s : State) (x : HostValue) : (s.observe x).tab = s.tab := rfl
@[simp] theorem observe_tv (s : State) (x : HostValue) : (s.observe x).tv = s.tv := rfl
@[simp] theorem observe_fault (s : State) (x : HostValue) : (s.observe x).fault = s.fault := rfl
@[simp] theorem observe_busy (s : State) (x : HostValue) : (s.observe x).busy = s.busy := rfl
@[simp] theorem observe_code (s : State) (x : HostValue) : (s.observe x).code = s.code := rfl
@[simp] theorem observe_fcmd (s : State) (x : HostValue) : (s.observe x).fcmd = s.fcmd := rfl
@[simp] theorem observe_buf (s : State) (x : HostValue) : (s.observe x).buf = s.buf := rfl
@[simp] theorem observe_bufSize (s : State) (x : HostValue) : (s.observe x).bufSize = s.bufSize := rfl
@[simp] theorem observe_draw (s : State) (x : HostValue) : (s.observe x).draw = s.draw := rfl
@[simp] theorem observe_pending (s : State) (x : HostValue) : (s.observe x).pending = s.pending := rfl
@[simp] theorem observe_observed (s : State) (x : HostValue) : (s.observe x).observed = s.observed ++ [x] := rfl
@[simp] theorem observe_readV (s : State) (x : HostValue) (j : VReg) : (s.observe x).readV j = s.readV j := rfl
@[simp] theorem observe_readR (s : State) (x : HostValue) (j : SReg) : (s.observe x).readR j = s.readR j := rfl
@[simp] theorem observe_readTab (s : State) (x : HostValue) (k : TabIndex) : (s.observe x).readTab k = s.readTab k := rfl
@[simp] theorem observe_readByte (s : State) (x : HostValue) (a' : Nat) : (s.observe x).readByte a' = s.readByte a' := rfl
@[simp] theorem observe_admitted (s : State) (x : HostValue) (a' n : Nat) : (s.observe x).admitted a' n = s.admitted a' n := rfl
@[simp] theorem observe_memRead (s : State) (x : HostValue) (a' n : Nat) : (s.observe x).memRead a' n = s.memRead a' n := rfl
@[simp] theorem observe_number (s : State) (x : HostValue) (j : SReg) : (s.observe x).number j = s.number j := rfl

/-! ## startCommand -/

@[simp] theorem startCommand_v (s : State) : (s.startCommand).v = s.v := rfl
@[simp] theorem startCommand_r (s : State) : (s.startCommand).r = s.r := rfl
@[simp] theorem startCommand_tab (s : State) : (s.startCommand).tab = s.tab := rfl
@[simp] theorem startCommand_tv (s : State) : (s.startCommand).tv = s.tv := rfl
@[simp] theorem startCommand_fault (s : State) : (s.startCommand).fault = s.fault := rfl
@[simp] theorem startCommand_busy (s : State) : (s.startCommand).busy = true := rfl
@[simp] theorem startCommand_code (s : State) : (s.startCommand).code = s.code := rfl
@[simp] theorem startCommand_fcmd (s : State) : (s.startCommand).fcmd = s.fcmd := rfl
@[simp] theorem startCommand_buf (s : State) : (s.startCommand).buf = s.buf := rfl
@[simp] theorem startCommand_bufSize (s : State) : (s.startCommand).bufSize = s.bufSize := rfl
@[simp] theorem startCommand_draw (s : State) : (s.startCommand).draw = s.draw := rfl
@[simp] theorem startCommand_pending (s : State) : (s.startCommand).pending = s.pending := rfl
@[simp] theorem startCommand_observed (s : State) : (s.startCommand).observed = s.observed := rfl
@[simp] theorem startCommand_readV (s : State) (j : VReg) : (s.startCommand).readV j = s.readV j := rfl
@[simp] theorem startCommand_readR (s : State) (j : SReg) : (s.startCommand).readR j = s.readR j := rfl
@[simp] theorem startCommand_readTab (s : State) (k : TabIndex) : (s.startCommand).readTab k = s.readTab k := rfl
@[simp] theorem startCommand_readByte (s : State) (a' : Nat) : (s.startCommand).readByte a' = s.readByte a' := rfl
@[simp] theorem startCommand_admitted (s : State) (a' n : Nat) : (s.startCommand).admitted a' n = s.admitted a' n := rfl
@[simp] theorem startCommand_memRead (s : State) (a' n : Nat) : (s.startCommand).memRead a' n = s.memRead a' n := rfl
@[simp] theorem startCommand_number (s : State) (j : SReg) : (s.startCommand).number j = s.number j := rfl

/-! ## finishCommand -/

@[simp] theorem finishCommand_v (s : State) : (s.finishCommand).v = s.v := rfl
@[simp] theorem finishCommand_r (s : State) : (s.finishCommand).r = s.r := rfl
@[simp] theorem finishCommand_tab (s : State) : (s.finishCommand).tab = s.tab := rfl
@[simp] theorem finishCommand_tv (s : State) : (s.finishCommand).tv = s.tv := rfl
@[simp] theorem finishCommand_fault (s : State) : (s.finishCommand).fault = s.fault := rfl
@[simp] theorem finishCommand_busy (s : State) : (s.finishCommand).busy = false := rfl
@[simp] theorem finishCommand_code (s : State) : (s.finishCommand).code = s.code := rfl
@[simp] theorem finishCommand_fcmd (s : State) : (s.finishCommand).fcmd = s.fcmd := rfl
@[simp] theorem finishCommand_buf (s : State) : (s.finishCommand).buf = s.buf := rfl
@[simp] theorem finishCommand_bufSize (s : State) : (s.finishCommand).bufSize = s.bufSize := rfl
@[simp] theorem finishCommand_draw (s : State) : (s.finishCommand).draw = s.draw := rfl
@[simp] theorem finishCommand_pending (s : State) : (s.finishCommand).pending = s.pending := rfl
@[simp] theorem finishCommand_observed (s : State) : (s.finishCommand).observed = s.observed := rfl
@[simp] theorem finishCommand_readV (s : State) (j : VReg) : (s.finishCommand).readV j = s.readV j := rfl
@[simp] theorem finishCommand_readR (s : State) (j : SReg) : (s.finishCommand).readR j = s.readR j := rfl
@[simp] theorem finishCommand_readTab (s : State) (k : TabIndex) : (s.finishCommand).readTab k = s.readTab k := rfl
@[simp] theorem finishCommand_readByte (s : State) (a' : Nat) : (s.finishCommand).readByte a' = s.readByte a' := rfl
@[simp] theorem finishCommand_admitted (s : State) (a' n : Nat) : (s.finishCommand).admitted a' n = s.admitted a' n := rfl
@[simp] theorem finishCommand_memRead (s : State) (a' n : Nat) : (s.finishCommand).memRead a' n = s.memRead a' n := rfl
@[simp] theorem finishCommand_number (s : State) (j : SReg) : (s.finishCommand).number j = s.number j := rfl

/-! ## afterTxn -/

@[simp] theorem afterTxn_v (s : State) (rest : List HostTxn) : (s.afterTxn rest).v = s.v := rfl
@[simp] theorem afterTxn_r (s : State) (rest : List HostTxn) : (s.afterTxn rest).r = s.r := rfl
@[simp] theorem afterTxn_tab (s : State) (rest : List HostTxn) : (s.afterTxn rest).tab = s.tab := rfl
@[simp] theorem afterTxn_tv (s : State) (rest : List HostTxn) : (s.afterTxn rest).tv = s.tv := rfl
@[simp] theorem afterTxn_fault (s : State) (rest : List HostTxn) : (s.afterTxn rest).fault = s.fault := rfl
@[simp] theorem afterTxn_busy (s : State) (rest : List HostTxn) : (s.afterTxn rest).busy = s.busy := rfl
@[simp] theorem afterTxn_code (s : State) (rest : List HostTxn) : (s.afterTxn rest).code = s.code := rfl
@[simp] theorem afterTxn_fcmd (s : State) (rest : List HostTxn) : (s.afterTxn rest).fcmd = s.fcmd := rfl
@[simp] theorem afterTxn_buf (s : State) (rest : List HostTxn) : (s.afterTxn rest).buf = s.buf := rfl
@[simp] theorem afterTxn_bufSize (s : State) (rest : List HostTxn) : (s.afterTxn rest).bufSize = s.bufSize := rfl
@[simp] theorem afterTxn_draw (s : State) (rest : List HostTxn) : (s.afterTxn rest).draw = s.draw := rfl
@[simp] theorem afterTxn_pending (s : State) (rest : List HostTxn) : (s.afterTxn rest).pending = rest := rfl
@[simp] theorem afterTxn_observed (s : State) (rest : List HostTxn) : (s.afterTxn rest).observed = s.observed := rfl
@[simp] theorem afterTxn_readV (s : State) (rest : List HostTxn) (j : VReg) : (s.afterTxn rest).readV j = s.readV j := rfl
@[simp] theorem afterTxn_readR (s : State) (rest : List HostTxn) (j : SReg) : (s.afterTxn rest).readR j = s.readR j := rfl
@[simp] theorem afterTxn_readTab (s : State) (rest : List HostTxn) (k : TabIndex) : (s.afterTxn rest).readTab k = s.readTab k := rfl
@[simp] theorem afterTxn_readByte (s : State) (rest : List HostTxn) (a' : Nat) : (s.afterTxn rest).readByte a' = s.readByte a' := rfl
@[simp] theorem afterTxn_admitted (s : State) (rest : List HostTxn) (a' n : Nat) : (s.afterTxn rest).admitted a' n = s.admitted a' n := rfl
@[simp] theorem afterTxn_memRead (s : State) (rest : List HostTxn) (a' n : Nat) : (s.afterTxn rest).memRead a' n = s.memRead a' n := rfl
@[simp] theorem afterTxn_number (s : State) (rest : List HostTxn) (j : SReg) : (s.afterTxn rest).number j = s.number j := rfl

/-! ## hostReset -/

@[simp] theorem hostReset_bufSize (s : State) : s.hostReset.bufSize = s.bufSize := rfl
@[simp] theorem hostReset_draw (s : State) : s.hostReset.draw = s.draw + 1 := rfl
@[simp] theorem hostReset_pending (s : State) : s.hostReset.pending = s.pending := rfl
@[simp] theorem hostReset_observed (s : State) : s.hostReset.observed = s.observed := rfl
@[simp] theorem hostReset_tv (s : State) : s.hostReset.tv = false := rfl
@[simp] theorem hostReset_fault (s : State) : s.hostReset.fault = false := rfl
@[simp] theorem hostReset_busy (s : State) : s.hostReset.busy = false := rfl
@[simp] theorem hostReset_code (s : State) : s.hostReset.code = 0 := rfl
@[simp] theorem hostReset_fcmd (s : State) : s.hostReset.fcmd = 0 := rfl
@[simp] theorem hostReset_buf (s : State) : s.hostReset.buf = [] := rfl
@[simp] theorem hostReset_tab (s : State) : s.hostReset.tab = Vector.replicate 16 ⟨0, 0⟩ := rfl

/-! ## Reading back what was written -/

@[simp] theorem writeV_readV_same (s : State) (i : VReg) (b : Block) : (s.writeV i b).readV i = b := by
  simp [State.readV, State.writeV]

theorem writeV_readV_ne (s : State) (i j : VReg) (b : Block) (h : j ≠ i) :
    (s.writeV i b).readV j = s.readV j := by
  have h' : (i : Nat) ≠ j := fun e => h (Fin.ext e.symm)
  simp [State.readV, State.writeV, Vector.getElem_set_ne, h']

@[simp] theorem writeR_readR_same (s : State) (i : SReg) (x : Word64) : (s.writeR i x).readR i = x := by
  simp [State.readR, State.writeR]

theorem writeR_readR_ne (s : State) (i j : SReg) (x : Word64) (h : j ≠ i) :
    (s.writeR i x).readR j = s.readR j := by
  have h' : (i : Nat) ≠ j := fun e => h (Fin.ext e.symm)
  simp [State.readR, State.writeR, Vector.getElem_set_ne, h']

@[simp] theorem installTable_readTab (s : State) (t : Vector Elem 16) (k : TabIndex) :
    (s.installTable t).readTab k = tableEntry t k := rfl

end Sys2Proof.Machine
end

