-- ==== Sys2Proof/Laws/Memory.lean ====
section
/-! SUPPORT. The laws of BUF: read after write, and that every memory operation keeps the canonical form
(20_memory.md R38, R41, R45). -/

namespace Sys2Proof.Machine

theorem Memory.byte?_put_same (m : Memory) (a : Nat) (b : Byte) :
    Memory.byte? (Memory.put m a b) a = some b := by
  induction m with
  | nil => simp [Memory.put, Memory.byte?]
  | cons c rest ih =>
    obtain ⟨k, x⟩ := c
    by_cases h1 : a < k
    · simp [Memory.put, Memory.byte?, h1]
    · by_cases h2 : k = a <;> simp [Memory.put, Memory.byte?, h1, h2, ih]

theorem Memory.byte?_put_ne (m : Memory) (a a' : Nat) (b : Byte) (h : a' ≠ a) :
    Memory.byte? (Memory.put m a b) a' = Memory.byte? m a' := by
  induction m with
  | nil => simp [Memory.put, Memory.byte?, Ne.symm h]
  | cons c rest ih =>
    obtain ⟨k, x⟩ := c
    by_cases h1 : a < k
    · simp [Memory.put, Memory.byte?, h1, Ne.symm h]
    · by_cases h2 : k = a
      · subst h2
        simp [Memory.put, Memory.byte?, Ne.symm h]
      · simp [Memory.put, Memory.byte?, h1, h2, ih]

theorem Memory.byte?_putAll_outside (bs : List Byte) (m : Memory) (a x : Nat)
    (h : ¬(a ≤ x ∧ x < a + bs.length)) : Memory.byte? (Memory.putAll m a bs) x = Memory.byte? m x := by
  induction bs generalizing m a with
  | nil => rfl
  | cons b rest ih =>
    simp only [List.length_cons] at h
    rw [Memory.putAll, ih _ _ (by omega), Memory.byte?_put_ne _ _ _ _ (by omega)]

theorem Memory.byte?_putAll_inside (bs : List Byte) (m : Memory) (a k : Nat) (h : k < bs.length) :
    Memory.byte? (Memory.putAll m a bs) (a + k) = some bs[k] := by
  induction bs generalizing m a k with
  | nil => simp at h
  | cons b rest ih =>
    cases k with
    | zero =>
      rw [Memory.putAll, Memory.byte?_putAll_outside _ _ _ _ (by omega)]
      exact Memory.byte?_put_same m a b
    | succ k =>
      have := ih (Memory.put m a b) (a + 1) k (by simpa using h)
      rw [Memory.putAll, show a + (k + 1) = a + 1 + k by omega, this, List.getElem_cons_succ]

/-- An entry after a write is the one written or one from before. -/
theorem Memory.mem_put (m : Memory) (a : Nat) (b : Byte) (c : Host.Cell) (h : c ∈ Memory.put m a b) :
    c = (a, b) ∨ c ∈ m := by
  induction m with
  | nil => simpa [Memory.put] using h
  | cons d rest ih =>
    obtain ⟨k, x⟩ := d
    by_cases h1 : a < k
    · simpa [Memory.put, h1] using h
    · by_cases h2 : k = a
      · rw [Memory.put, if_neg h1, if_pos h2] at h
        rcases List.mem_cons.mp h with h | h
        · exact .inl h
        · exact .inr (List.mem_cons_of_mem _ h)
      · rw [Memory.put, if_neg h1, if_neg h2] at h
        rcases List.mem_cons.mp h with h | h
        · exact .inr (h ▸ List.mem_cons_self ..)
        · exact (ih h).imp id (List.mem_cons_of_mem _)

theorem Memory.put_wf (m : Memory) (a : Nat) (b : Byte) (h : Memory.wf m) : Memory.wf (Memory.put m a b) := by
  induction m with
  | nil => simp [Memory.put]
  | cons d rest ih =>
    obtain ⟨k, x⟩ := d
    obtain ⟨hk, hr⟩ := List.pairwise_cons.mp h
    by_cases h1 : a < k
    · rw [Memory.put, if_pos h1]
      refine List.pairwise_cons.mpr ⟨fun c hc => ?_, h⟩
      rcases List.mem_cons.mp hc with rfl | hc
      · exact h1
      · exact Nat.lt_trans h1 (hk c hc)
    · by_cases h2 : k = a
      · rw [Memory.put, if_neg h1, if_pos h2]
        exact List.pairwise_cons.mpr ⟨fun c hc => h2 ▸ hk c hc, hr⟩
      · rw [Memory.put, if_neg h1, if_neg h2]
        refine List.pairwise_cons.mpr ⟨fun c hc => ?_, ih hr⟩
        rcases Memory.mem_put _ _ _ _ hc with rfl | hc
        · show k < a
          omega
        · exact hk c hc

theorem Memory.putAll_wf (bs : List Byte) (m : Memory) (a : Nat) (h : Memory.wf m) :
    Memory.wf (Memory.putAll m a bs) := by
  induction bs generalizing m a with
  | nil => exact h
  | cons b rest ih => exact ih _ _ (Memory.put_wf m a b h)

/-- Every entry after a string is written was there before or lies in the string's range. -/
theorem Memory.mem_putAll (bs : List Byte) (m : Memory) (a : Nat) (c : Host.Cell)
    (h : c ∈ Memory.putAll m a bs) : c ∈ m ∨ (a ≤ c.1 ∧ c.1 < a + bs.length) := by
  induction bs generalizing m a with
  | nil => exact .inl h
  | cons b rest ih =>
    simp only [List.length_cons]
    rcases ih _ _ h with h | h
    · rcases Memory.mem_put _ _ _ _ h with rfl | h
      · exact .inr ⟨Nat.le_refl _, by omega⟩
      · exact .inl h
    · exact .inr (by omega)

@[simp] theorem writeByte_readByte_same (s : State) (a : Nat) (b : Byte) : (s.writeByte a b).readByte a = b := by
  simp [State.readByte, Memory.byte?_put_same]

theorem writeByte_readByte_ne (s : State) (a x : Nat) (b : Byte) (h : x ≠ a) :
    (s.writeByte a b).readByte x = s.readByte x := by
  simp [State.readByte, Memory.byte?_put_ne _ _ _ _ h]

theorem memWrite_readByte_inside (s : State) (a k : Nat) (bs : List Byte) (h : k < bs.length) :
    (s.memWrite a bs).readByte (a + k) = bs[k] := by
  simp [State.readByte, Memory.byte?_putAll_inside _ _ _ _ h]

theorem memWrite_readByte_outside (s : State) (a x : Nat) (bs : List Byte) (h : ¬(a ≤ x ∧ x < a + bs.length)) :
    (s.memWrite a bs).readByte x = s.readByte x := by
  simp [State.readByte, Memory.byte?_putAll_outside _ _ _ _ h]

@[simp] theorem memRead_length (s : State) (a n : Nat) : (s.memRead a n).length = n := by simp [State.memRead]

theorem memRead_getElem (s : State) (a n k : Nat) (h : k < (s.memRead a n).length) :
    (s.memRead a n)[k] = s.readByte (a + k) := by simp [State.memRead]

theorem admitted_iff (s : State) (a n : Nat) : s.admitted a n = true ↔ a + n ≤ s.bufSize := by
  simp [State.admitted]

end Sys2Proof.Machine
end

