-- ==== Sys2Proof/Laws/Exec.lean ====
section
/-! SUPPORT. What each meaning, an issued word and a host transaction can do, said once: if it answers next t, then
one of these cases holds. -/

namespace Sys2Proof.Machine

variable {s t : State}

/-- Only a next state comes out of raising a fault, and it is the fault entry (60_exceptions.md R95). -/
theorem raise_cases {c : FaultCode} {i : Instr} (h : raise c i s = .next t) : t = raiseFault c (encode i) s := by
  cases h
  rfl

theorem execGfmulh_cases {vd va : VReg} (h : execGfmulh vd va s = .next t) :
    (s.tv = false ∧ t = raiseFault .notab (encode (.gfmulh vd va)) s) ∨
      (s.tv = true ∧ t = s.writeElem vd (mulH (s.readElem va) s.tab)) := by
  unfold execGfmulh at h
  split at h
  · exact .inl ⟨‹_›, raise_cases h⟩
  · cases h
    exact .inr ⟨by simpa using ‹¬s.tv = false›, rfl⟩

theorem execBuildtab_cases {va : VReg} (h : execBuildtab va s = .next t) :
    (s.tv = true ∧ t = raiseFault .tablock (encode (.buildtab va)) s) ∨
      (s.tv = false ∧ t = s.installTable (buildProductTable (s.readElem va))) := by
  unfold execBuildtab at h
  split at h
  · exact .inl ⟨‹_›, raise_cases h⟩
  · cases h
    exact .inr ⟨by simpa using ‹¬s.tv = true›, rfl⟩

theorem execAbsorb_cases {vd : VReg} {rs rn : SReg} (h : execAbsorb vd rs rn s = .next t) :
    (s.tv = false ∧ t = raiseFault .notab (encode (.absorb vd rs rn)) s) ∨
      (s.tv = true ∧ s.admitted (s.number rs) (s.number rn) = false ∧
        t = raiseFault .bounds (encode (.absorb vd rs rn)) s) ∨
      (s.tv = true ∧ s.admitted (s.number rs) (s.number rn) = true ∧
        t = s.writeElem vd (gfAbsorb (s.readElem vd) (s.memRead (s.number rs) (s.number rn)) s.tab)) := by
  simp only [execAbsorb] at h
  split at h
  · exact .inl ⟨‹_›, raise_cases h⟩
  · have htv : s.tv = true := by simpa using ‹¬s.tv = false›
    split at h
    · cases h
      exact .inr (.inr ⟨htv, ‹_›, rfl⟩)
    · exact .inr (.inl ⟨htv, eq_false_of_ne_true ‹_›, raise_cases h⟩)

theorem execCtrinit_cases {vd va : VReg} {rn : SReg} (h : execCtrinit vd va rn s = .next t) :
    (s.number rn = 12 ∧ t = s.writeV vd (initialCounter (s.readV va))) ∨
      (s.number rn ≠ 12 ∧ t = raiseFault .nonce (encode (.ctrinit vd va rn)) s) := by
  unfold execCtrinit at h
  split at h
  · cases h
    exact .inl ⟨‹_›, rfl⟩
  · exact .inr ⟨‹_›, raise_cases h⟩

theorem execOvlp_cases {rd ra rla rb rlb : SReg} (h : execOvlp rd ra rla rb rlb s = .next t) :
    (rangeValid (s.number ra) (s.number rla) = true ∧ rangeValid (s.number rb) (s.number rlb) = true ∧
        t = s.writeNumber rd (overlapResult (s.number ra) (s.number rla) (s.number rb) (s.number rlb))) ∨
      ((rangeValid (s.number ra) (s.number rla) = false ∨ rangeValid (s.number rb) (s.number rlb) = false) ∧
        t = raiseFault .range (encode (.ovlp rd ra rla rb rlb)) s) := by
  simp only [execOvlp] at h
  split at h
  · rename_i hv
    cases h
    exact .inl ⟨(Bool.and_eq_true_iff.mp hv).1, (Bool.and_eq_true_iff.mp hv).2, rfl⟩
  · rename_i hv
    exact .inr ⟨by simpa [← Bool.not_eq_true, Decidable.imp_iff_not_or] using hv, raise_cases h⟩

theorem execXorm_cases {rd ra rb rn : SReg} (h : execXorm rd ra rb rn s = .next t) :
    ((s.admitted (s.number rd) (s.number rn) && s.admitted (s.number ra) (s.number rn) &&
        s.admitted (s.number rb) (s.number rn)) = false ∧
        t = raiseFault .bounds (encode (.xorm rd ra rb rn)) s) ∨
      ((s.admitted (s.number rd) (s.number rn) && s.admitted (s.number ra) (s.number rn) &&
        s.admitted (s.number rb) (s.number rn)) = true ∧
        (inexactOverlap (s.number rd) (s.number rn) (s.number ra) (s.number rn) ||
          inexactOverlap (s.number rd) (s.number rn) (s.number rb) (s.number rn)) = true ∧
        t = raiseFault .overlap (encode (.xorm rd ra rb rn)) s) ∨
      ((s.admitted (s.number rd) (s.number rn) && s.admitted (s.number ra) (s.number rn) &&
        s.admitted (s.number rb) (s.number rn)) = true ∧
        (inexactOverlap (s.number rd) (s.number rn) (s.number ra) (s.number rn) ||
          inexactOverlap (s.number rd) (s.number rn) (s.number rb) (s.number rn)) = false ∧
        t = s.memWrite (s.number rd)
          (xorBytes (s.memRead (s.number ra) (s.number rn)) (s.memRead (s.number rb) (s.number rn)))) := by
  simp only [execXorm] at h
  split at h
  · exact .inl ⟨by simp_all, raise_cases h⟩
  · split at h
    · exact .inl ⟨by simp_all, raise_cases h⟩
    · split at h
      · exact .inl ⟨by simp_all, raise_cases h⟩
      · split at h
        · exact .inr (.inl ⟨by simp_all, by simp_all, raise_cases h⟩)
        · split at h
          · exact .inr (.inl ⟨by simp_all, by simp_all, raise_cases h⟩)
          · cases h
            exact .inr (.inr ⟨by simp_all, by simp_all, rfl⟩)

theorem execRev4_cases {rd rs : SReg} (h : execRev4 rd rs s = .next t) :
    (s.number rs > 15 ∧ t = raiseFault .range (encode (.rev4 rd rs)) s) ∨
      (s.number rs ≤ 15 ∧ t = s.writeNumber rd (rev4 (BitVec.ofNat 4 (s.number rs))).toNat) := by
  simp only [execRev4] at h
  split at h
  · exact .inl ⟨‹_›, raise_cases h⟩
  · cases h
    exact .inr ⟨Nat.le_of_not_lt ‹_›, rfl⟩

theorem execLdv_cases {vd : VReg} {rs : SReg} (h : execLdv vd rs s = .next t) :
    (s.admitted (s.number rs) 16 = true ∧ t = s.writeV vd (Block.ofBytes (s.memRead (s.number rs) 16))) ∨
      (s.admitted (s.number rs) 16 = false ∧ t = raiseFault .bounds (encode (.ldv vd rs)) s) := by
  simp only [execLdv] at h
  split at h
  · cases h
    exact .inl ⟨‹_›, rfl⟩
  · exact .inr ⟨eq_false_of_ne_true ‹_›, raise_cases h⟩

theorem execStv_cases {va : VReg} {rs : SReg} (h : execStv va rs s = .next t) :
    (s.admitted (s.number rs) 16 = true ∧ t = s.memWrite (s.number rs) (Block.toBytes (s.readV va))) ∨
      (s.admitted (s.number rs) 16 = false ∧ t = raiseFault .bounds (encode (.stv va rs)) s) := by
  simp only [execStv] at h
  split at h
  · cases h
    exact .inl ⟨‹_›, rfl⟩
  · exact .inr ⟨eq_false_of_ne_true ‹_›, raise_cases h⟩

/-- What issuing a word can do (60_exceptions.md R96, R97). -/
theorem runCommand_cases {w : Word32} (h : runCommand w s = .next t) :
    (s.fault = true ∧ t = s) ∨
      (s.fault = false ∧ (∃ e, decode w = .error e) ∧ t = raiseFault .illegal w s) ∨
      (s.fault = false ∧ ∃ i, decode w = .ok i ∧ exec i s = .next t) := by
  unfold runCommand at h
  split at h
  · cases h
    exact .inl ⟨‹_›, rfl⟩
  · have hf : s.fault = false := by simpa using ‹¬s.fault = true›
    cases hd : decode w with
    | error e =>
      rw [hd] at h
      cases h
      exact .inr (.inl ⟨hf, ⟨e, rfl⟩, rfl⟩)
    | ok i =>
      rw [hd] at h
      exact .inr (.inr ⟨hf, i, rfl, h⟩)

/-- What HISSUE can do: the command runs with BUSY set, and BUSY is clear afterwards (R106). -/
theorem issue_cases {w : Word32} (h : issue w s = .next t) :
    ∃ u, runCommand w s.startCommand = .next u ∧ t = u.finishCommand := by
  unfold issue at h
  cases hr : runCommand w s.startCommand with
  | next u =>
    rw [hr] at h
    cases h
    exact ⟨u, rfl, rfl⟩
  | fault r => cases r
  | refused r =>
    rw [hr] at h
    cases h

theorem whenIdle_cases {o : Host.Outcome State Fault Refusal} (h : whenIdle s o = .next t) :
    s.busy = false ∧ o = .next t := by
  unfold whenIdle at h
  split at h
  · cases h
  · exact ⟨by simpa using ‹¬s.busy = true›, h⟩

theorem whenInBuf_cases {a : Nat} {o : Host.Outcome State Fault Refusal} (h : whenInBuf s a o = .next t) :
    a < s.bufSize ∧ o = .next t := by
  unfold whenInBuf at h
  split at h
  · exact ⟨‹_›, h⟩
  · cases h

/-- What a host transaction can do (R106). -/
theorem hostStep_cases {x : HostTxn} (h : hostStep x s = .next t) :
    (s.busy = false ∧ ((∃ i v, x = .wrR i v ∧ t = s.writeR i v) ∨
        (∃ i b, x = .wrV i b ∧ t = s.writeV i (Block.ofBytes b.toList)) ∨
        (∃ a b, x = .wrBuf a b ∧ a < s.bufSize ∧ t = s.writeByte a b) ∨
        (∃ w, x = .issue w ∧ issue w s = .next t))) ∨
      (x = .reset ∧ t = s.hostReset) ∨ (∃ y, (∀ w, x ≠ .issue w) ∧ x ≠ .reset ∧ t = s.observe y) := by
  cases x with
  | wrR i v =>
    obtain ⟨hb, h⟩ := whenIdle_cases h
    cases h
    exact .inl ⟨hb, .inl ⟨i, v, rfl, rfl⟩⟩
  | wrV i b =>
    obtain ⟨hb, h⟩ := whenIdle_cases h
    cases h
    exact .inl ⟨hb, .inr (.inl ⟨i, b, rfl, rfl⟩)⟩
  | wrBuf a b =>
    obtain ⟨hb, h⟩ := whenIdle_cases h
    obtain ⟨ha, h⟩ := whenInBuf_cases h
    cases h
    exact .inl ⟨hb, .inr (.inr (.inl ⟨a, b, rfl, ha, rfl⟩))⟩
  | issue w =>
    obtain ⟨hb, h⟩ := whenIdle_cases h
    exact .inl ⟨hb, .inr (.inr (.inr ⟨w, rfl, h⟩))⟩
  | reset =>
    cases h
    exact .inr (.inl ⟨rfl, rfl⟩)
  | rdR i =>
    obtain ⟨_, h⟩ := whenIdle_cases h
    cases h
    exact .inr (.inr ⟨_, by simp, by simp, rfl⟩)
  | rdV i =>
    obtain ⟨_, h⟩ := whenIdle_cases h
    cases h
    exact .inr (.inr ⟨_, by simp, by simp, rfl⟩)
  | rdBuf a =>
    obtain ⟨_, h⟩ := whenIdle_cases h
    obtain ⟨_, h⟩ := whenInBuf_cases h
    cases h
    exact .inr (.inr ⟨_, by simp, by simp, rfl⟩)
  | rdStatus =>
    cases h
    exact .inr (.inr ⟨_, by simp, by simp, rfl⟩)
  | rdFcmd =>
    obtain ⟨_, h⟩ := whenIdle_cases h
    cases h
    exact .inr (.inr ⟨_, by simp, by simp, rfl⟩)

/-- What a step can do: nothing, or the host's next transaction. -/
theorem step_cases (h : step s = .next t) :
    (s.pending = [] ∧ t = s) ∨ ∃ x rest, s.pending = x :: rest ∧ hostStep x (s.afterTxn rest) = .next t := by
  unfold step nextTransaction at h
  split at h
  · cases h
    exact .inl ⟨‹_›, rfl⟩
  · exact .inr ⟨_, _, ‹_›, h⟩

end Sys2Proof.Machine
end

