-- ==== Sys2Proof/Laws/Frame.lean ====
section
/-! SUPPORT. The frame of each update of the state, and what each meaning answers on each side of its checks. -/

namespace Sys2Proof.Machine

open Sys2Proof.Safety

theorem onlyV_writeV (d : VReg) (b : Block) (s : State) : OnlyV d s (s.writeV d b) :=
  ⟨fun i h => writeV_readV_ne s d i b h, fun i => writeV_readR s d b i, ⟨fun k => writeV_readTab s d b k, rfl⟩,
    fun a => writeV_readByte s d b a, ⟨rfl, rfl, rfl, rfl⟩, ⟨rfl, rfl, rfl, rfl⟩⟩

theorem onlyV_writeElem (d : VReg) (e : Elem) (s : State) : OnlyV d s (s.writeElem d e) := onlyV_writeV d _ s

@[simp] theorem writeElem_readV_same (s : State) (d : VReg) (e : Elem) : (s.writeElem d e).readV d = bytes e :=
  writeV_readV_same s d _

theorem onlyR_writeR (d : SReg) (x : Word64) (s : State) : OnlyR d s (s.writeR d x) :=
  ⟨fun i => writeR_readV s d x i, fun i h => writeR_readR_ne s d i x h, ⟨fun k => writeR_readTab s d x k, rfl⟩,
    fun a => writeR_readByte s d x a, ⟨rfl, rfl, rfl, rfl⟩, ⟨rfl, rfl, rfl, rfl⟩⟩

theorem onlyR_writeNumber (d : SReg) (x : Nat) (s : State) : OnlyR d s (s.writeNumber d x) := onlyR_writeR d _ s

theorem onlyBuf_memWrite (a n : Nat) (bs : List Byte) (h : bs.length = n) (s : State) :
    OnlyBuf a n s (s.memWrite a bs) := by
  subst h
  exact ⟨fun i => memWrite_readV s a bs i, fun i => memWrite_readR s a bs i,
    ⟨fun k => memWrite_readTab s a bs k, rfl⟩, fun x h => memWrite_readByte_outside s a x bs h,
    ⟨rfl, rfl, rfl, rfl⟩, ⟨rfl, rfl, rfl, rfl⟩⟩

theorem onlyBuf_writeByte (a : Nat) (b : Byte) (s : State) : OnlyBuf a 1 s (s.writeByte a b) :=
  ⟨fun i => writeByte_readV s a b i, fun i => writeByte_readR s a b i, ⟨fun k => writeByte_readTab s a b k, rfl⟩,
    fun x h => writeByte_readByte_ne s a x b (by omega), ⟨rfl, rfl, rfl, rfl⟩, ⟨rfl, rfl, rfl, rfl⟩⟩

theorem onlyTable_installTable (t : Vector Elem 16) (s : State) : OnlyTable s (s.installTable t) :=
  ⟨fun i => installTable_readV s t i, fun i => installTable_readR s t i, fun a => installTable_readByte s t a,
    ⟨rfl, rfl, rfl, rfl⟩, ⟨rfl, rfl, rfl, rfl⟩⟩

/-- Raising a fault is R95's state (60_exceptions.md). -/
theorem raiseFault_eq_faulted (c : FaultCode) (w : Word32) (s : State) : raiseFault c w s = faulted c.number w s :=
  rfl

variable {s : State}

theorem execGfmulh_of_valid (vd va : VReg) (h : s.tv = true) :
    execGfmulh vd va s = .next (s.writeElem vd (mulH (s.readElem va) s.tab)) := by simp [execGfmulh, h]

theorem execBuildtab_of_invalid (va : VReg) (h : s.tv = false) :
    execBuildtab va s = .next (s.installTable (buildProductTable (s.readElem va))) := by simp [execBuildtab, h]

theorem execAbsorb_of_valid (vd : VReg) (rs rn : SReg) (h : s.tv = true)
    (hb : s.number rs + s.number rn ≤ s.bufSize) :
    execAbsorb vd rs rn s =
      .next (s.writeElem vd (gfAbsorb (s.readElem vd) (s.memRead (s.number rs) (s.number rn)) s.tab)) := by
  simp [execAbsorb, h, (admitted_iff _ _ _).mpr hb]

theorem execAbsorb_of_outside (vd : VReg) (rs rn : SReg) (h : s.tv = true)
    (hb : s.bufSize < s.number rs + s.number rn) :
    execAbsorb vd rs rn s = raise .bounds (.absorb vd rs rn) s := by
  have : s.admitted (s.number rs) (s.number rn) = false := by simp [State.admitted, hb]
  simp [execAbsorb, h, this]

theorem execLdv_of_inside (vd : VReg) (rs : SReg) (h : s.number rs + 16 ≤ s.bufSize) :
    execLdv vd rs s = .next (s.writeV vd (Block.ofBytes (s.memRead (s.number rs) 16))) := by
  simp [execLdv, (admitted_iff _ _ _).mpr h]

theorem execLdv_of_outside (vd : VReg) (rs : SReg) (h : s.bufSize < s.number rs + 16) :
    execLdv vd rs s = raise .bounds (.ldv vd rs) s := by
  have : s.admitted (s.number rs) 16 = false := by simp [State.admitted, h]
  simp [execLdv, this]

theorem execStv_of_inside (va : VReg) (rs : SReg) (h : s.number rs + 16 ≤ s.bufSize) :
    execStv va rs s = .next (s.memWrite (s.number rs) (Block.toBytes (s.readV va))) := by
  simp [execStv, (admitted_iff _ _ _).mpr h]

theorem execStv_of_outside (va : VReg) (rs : SReg) (h : s.bufSize < s.number rs + 16) :
    execStv va rs s = raise .bounds (.stv va rs) s := by
  have : s.admitted (s.number rs) 16 = false := by simp [State.admitted, h]
  simp [execStv, this]

theorem execXorm_of_checked (rd ra rb rn : SReg) (hd : s.number rd + s.number rn ≤ s.bufSize)
    (ha : s.number ra + s.number rn ≤ s.bufSize) (hb : s.number rb + s.number rn ≤ s.bufSize)
    (h1 : inexactOverlap (s.number rd) (s.number rn) (s.number ra) (s.number rn) = false)
    (h2 : inexactOverlap (s.number rd) (s.number rn) (s.number rb) (s.number rn) = false) :
    execXorm rd ra rb rn s =
      .next (s.memWrite (s.number rd)
        (xorBytes (s.memRead (s.number ra) (s.number rn)) (s.memRead (s.number rb) (s.number rn)))) := by
  simp [execXorm, (admitted_iff _ _ _).mpr hd, (admitted_iff _ _ _).mpr ha, (admitted_iff _ _ _).mpr hb, h1, h2]

@[simp] theorem xorBytes_length (x y : List Byte) : (xorBytes x y).length = min x.length y.length := by
  simp [xorBytes]

end Sys2Proof.Machine
end

