-- ==== Sys2Proof/Laws/Effect.lean ====
section
/-! SUPPORT. What `exec` can do, said once for all commands: raise a fault, change nothing, write one register, write
a byte string inside BUF, or install a table (10_state.md R27). -/

namespace Sys2Proof.Machine

open Sys2Proof.Safety

/-- If a command answers a next state, it is one of these updates of the state before. -/
theorem exec_cases {i : Instr} {s t : State} (h : exec i s = .next t) :
    (∃ c, t = raiseFault c (encode i) s) ∨ (i = .nop ∧ t = s) ∨
      (writesV i = true ∧ ∃ d b, t = s.writeV d b) ∨ (writesR i = true ∧ ∃ d x, t = s.writeR d x) ∨
      (writesBuf i = true ∧ ∃ a bs, a + bs.length ≤ s.bufSize ∧ t = s.memWrite a bs) ∨
      (∃ va, i = .buildtab va ∧ s.tv = false ∧ t = s.installTable (buildProductTable (s.readElem va))) := by
  cases i with
  | nop =>
    cases h
    exact .inr (.inl ⟨rfl, rfl⟩)
  | gfadd va vb vd =>
    cases h
    exact .inr (.inr (.inl ⟨rfl, _, _, rfl⟩))
  | gfdbl vd va =>
    cases h
    exact .inr (.inr (.inl ⟨rfl, _, _, rfl⟩))
  | rdtab vd k =>
    cases h
    exact .inr (.inr (.inl ⟨rfl, _, _, rfl⟩))
  | inc32 vd k =>
    cases h
    exact .inr (.inr (.inl ⟨rfl, _, _, rfl⟩))
  | gfmulh vd va =>
    rcases execGfmulh_cases h with ⟨_, h⟩ | ⟨_, h⟩
    · exact .inl ⟨_, h⟩
    · exact .inr (.inr (.inl ⟨rfl, _, _, h⟩))
  | buildtab va =>
    rcases execBuildtab_cases h with ⟨_, h⟩ | ⟨htv, h⟩
    · exact .inl ⟨_, h⟩
    · exact .inr (.inr (.inr (.inr (.inr ⟨va, rfl, htv, h⟩))))
  | absorb vd rs rn =>
    rcases execAbsorb_cases h with ⟨_, h⟩ | ⟨_, _, h⟩ | ⟨_, _, h⟩
    · exact .inl ⟨_, h⟩
    · exact .inl ⟨_, h⟩
    · exact .inr (.inr (.inl ⟨rfl, _, _, h⟩))
  | ctrinit vd va rn =>
    rcases execCtrinit_cases h with ⟨_, h⟩ | ⟨_, h⟩
    · exact .inr (.inr (.inl ⟨rfl, _, _, h⟩))
    · exact .inl ⟨_, h⟩
  | xorm rd ra rb rn =>
    rcases execXorm_cases h with ⟨_, h⟩ | ⟨_, _, h⟩ | ⟨ha, _, h⟩
    · exact .inl ⟨_, h⟩
    · exact .inl ⟨_, h⟩
    · refine .inr (.inr (.inr (.inr (.inl ⟨rfl, _, _, ?_, h⟩))))
      simp only [Bool.and_eq_true, admitted_iff] at ha
      simpa using ha.1.1
  | ovlp rd ra rla rb rlb =>
    rcases execOvlp_cases h with ⟨_, _, h⟩ | ⟨_, h⟩
    · exact .inr (.inr (.inr (.inl ⟨rfl, _, _, h⟩)))
    · exact .inl ⟨_, h⟩
  | ldv vd rs =>
    rcases execLdv_cases h with ⟨_, h⟩ | ⟨_, h⟩
    · exact .inr (.inr (.inl ⟨rfl, _, _, h⟩))
    · exact .inl ⟨_, h⟩
  | stv va rs =>
    rcases execStv_cases h with ⟨ha, h⟩ | ⟨_, h⟩
    · exact .inr (.inr (.inr (.inr (.inl ⟨rfl, _, _, by simpa [admitted_iff] using ha, h⟩))))
    · exact .inl ⟨_, h⟩
  | rev4 rd rs =>
    rcases execRev4_cases h with ⟨_, h⟩ | ⟨_, h⟩
    · exact .inl ⟨_, h⟩
    · exact .inr (.inr (.inr (.inl ⟨rfl, _, _, h⟩)))

/-- What no command writes: BUF_SIZE, the draw, the host's lists, BUSY. -/
theorem exec_rest {i : Instr} {s t : State} (h : exec i s = .next t) : SameRest s t ∧ t.busy = s.busy := by
  rcases exec_cases h with ⟨c, rfl⟩ | ⟨rfl, rfl⟩ | ⟨_, d, b, rfl⟩ | ⟨_, d, x, rfl⟩ | ⟨_, a, bs, _, rfl⟩ |
    ⟨va, rfl, _, rfl⟩ <;> simp [SameRest]

/-- One more step of a run (70_reset_and_hazards.md R113). -/
theorem run_succ (M : Host.Core) (n : Nat) (s : M.State) :
    M.run (n + 1) s = match M.step s with
      | .next t => M.run n t
      | .fault r => .fault r
      | .refused r => .refused r := rfl

end Sys2Proof.Machine
end

