-- ==== Sys2Proof/Laws/Field.lean ====
section
/-! SUPPORT. The laws of the polynomials that elements stand for (40_gf128.md R61, R62): they add over the
two-element field, split at any place, and are congruent modulo the field polynomial. -/

namespace Sys2Proof.FieldSpec

open Polynomial Sys2Proof.Machine

theorem FieldEq.refl (p : (ZMod 2)[X]) : FieldEq p p := ⟨0, by ring⟩

theorem FieldEq.symm {p q : (ZMod 2)[X]} (h : FieldEq p q) : FieldEq q p := by
  obtain ⟨k, hk⟩ := h
  exact ⟨-k, by rw [hk]; ring⟩

theorem FieldEq.trans {p q r : (ZMod 2)[X]} (h : FieldEq p q) (h' : FieldEq q r) : FieldEq p r := by
  obtain ⟨k, hk⟩ := h
  obtain ⟨k', hk'⟩ := h'
  exact ⟨k' + k, by rw [hk, hk']; ring⟩

theorem FieldEq.add {p q p' q' : (ZMod 2)[X]} (h : FieldEq p q) (h' : FieldEq p' q') :
    FieldEq (p + p') (q + q') := by
  obtain ⟨k, hk⟩ := h
  obtain ⟨k', hk'⟩ := h'
  exact ⟨k + k', by rw [hk, hk']; ring⟩

theorem FieldEq.mul_left {p q : (ZMod 2)[X]} (r : (ZMod 2)[X]) (h : FieldEq p q) : FieldEq (r * p) (r * q) := by
  obtain ⟨k, hk⟩ := h
  exact ⟨r * k, by rw [hk]; ring⟩

theorem FieldEq.mul_right {p q : (ZMod 2)[X]} (r : (ZMod 2)[X]) (h : FieldEq p q) : FieldEq (p * r) (q * r) := by
  rw [mul_comm p, mul_comm q]
  exact h.mul_left r

theorem poly_add_self (p : (ZMod 2)[X]) : p + p = 0 := CharTwo.add_self_eq_zero p

theorem polyOf_congr (n : Nat) (c d : Nat → Bool) (h : ∀ i, i < n → c i = d i) : polyOf n c = polyOf n d :=
  Finset.sum_congr rfl fun i hi => by rw [h i (Finset.mem_range.mp hi)]

theorem polyOf_xor (n : Nat) (c d : Nat → Bool) : polyOf n (fun i => c i ^^ d i) = polyOf n c + polyOf n d := by
  rw [polyOf, polyOf, polyOf, ← Finset.sum_add_distrib]
  refine Finset.sum_congr rfl fun i _ => ?_
  cases c i <;> cases d i <;> simp [poly_add_self]

/-- The first m coefficients, and the rest from x^m on. -/
theorem polyOf_split (m n : Nat) (c : Nat → Bool) :
    polyOf (m + n) c = polyOf m c + X ^ m * polyOf n fun i => c (m + i) := by
  rw [polyOf, Finset.sum_range_add, polyOf, polyOf, Finset.mul_sum]
  congr 1
  refine Finset.sum_congr rfl fun i _ => ?_
  cases c (m + i) <;> simp [pow_add]

theorem polyOf_false (n : Nat) (c : Nat → Bool) (h : ∀ i, i < n → c i = false) : polyOf n c = 0 :=
  Finset.sum_eq_zero fun i hi => by simp [h i (Finset.mem_range.mp hi)]

theorem coeff_add (x y : Elem) (i : Nat) : coeff (gfAdd x y) i = (coeff x i ^^ coeff y i) := by
  unfold coeff gfAdd
  split <;> simp

/-- Element addition is polynomial addition (R65). -/
theorem toPoly_add (x y : Elem) : toPoly (gfAdd x y) = toPoly x + toPoly y := by
  rw [toPoly, polyOf_congr 128 _ _ fun i _ => coeff_add x y i, polyOf_xor]
  rfl

/-- An element is told by its 128 coefficients. -/
theorem elem_ext_coeff (e f : Elem) (h : ∀ i, i < 128 → coeff e i = coeff f i) : e = f := by
  obtain ⟨l, hi⟩ := e
  obtain ⟨l', hi'⟩ := f
  have h1 : l = l' := by
    apply BitVec.eq_of_getLsbD_eq
    intro j hj
    have := h (63 - j) (by omega)
    simpa [coeff, show 63 - j < 64 by omega, show 63 - (63 - j) = j by omega] using this
  have h2 : hi = hi' := by
    apply BitVec.eq_of_getLsbD_eq
    intro j hj
    have := h (127 - j) (by omega)
    simpa [coeff, show ¬127 - j < 64 by omega, show 127 - (127 - j) = j by omega] using this
  rw [h1, h2]

/-- Moving the coefficients k places up: what stays below x^128, and the terms that leave it. -/
theorem polyOf_shift (k : Nat) (hk : k ≤ 128) (c : Nat → Bool) :
    polyOf 128 (fun i => decide (k ≤ i) && c (i - k)) +
        ∑ b ∈ Finset.range k, (if c (128 - k + b) then X ^ (128 + b) else 0) = X ^ k * polyOf 128 c := by
  have h1 : polyOf 128 (fun i => decide (k ≤ i) && c (i - k)) = X ^ k * polyOf (128 - k) c := by
    rw [show (128 : Nat) = k + (128 - k) by omega, polyOf_split, polyOf_false k _ (fun i hi => by simp; omega),
      zero_add, show k + (128 - k) - k = 128 - k by omega]
    congr 1
    apply polyOf_congr
    intro i _
    simp
  have h2 : polyOf 128 c = polyOf (128 - k) c + X ^ (128 - k) * polyOf k (fun i => c (128 - k + i)) := by
    rw [← polyOf_split, show 128 - k + k = 128 by omega]
  rw [h1, h2, mul_add, ← mul_assoc, ← pow_add, show k + (128 - k) = 128 by omega]
  rw [add_right_inj]
  rw [polyOf, Finset.mul_sum]
  exact Finset.sum_congr rfl fun b _ => by rw [mul_ite, mul_zero, ← pow_add]

/-- What doubling does to each coefficient (R64). -/
theorem gfDouble_coeff (z : Elem) (i : Nat) (hi : i < 128) :
    FieldSpec.coeff (gfDouble z) i =
      ((decide (1 ≤ i) && FieldSpec.coeff z (i - 1)) ^^
        (FieldSpec.coeff z 127 && FieldSpec.coeff ⟨0xe100000000000000, 0⟩ i)) := by
  have hc : (z.high &&& 1 = 1) ↔ FieldSpec.coeff z 127 = true := by
    constructor
    · intro h
      have := congrArg (fun x => x.getLsbD 0) h
      simpa [FieldSpec.coeff] using this
    · intro h
      apply BitVec.eq_of_getLsbD_eq
      intro j hj
      cases j with
      | zero => simpa [FieldSpec.coeff] using h
      | succ j => simp
  have key : FieldSpec.coeff ⟨z.low >>> 1, z.high >>> 1 ||| z.low <<< 63⟩ i =
      (decide (1 ≤ i) && FieldSpec.coeff z (i - 1)) := by
    unfold FieldSpec.coeff
    dsimp only
    by_cases h : i < 64
    · rw [if_pos h, if_pos (by omega), BitVec.getLsbD_ushiftRight]
      by_cases h4 : 1 ≤ i
      · simp [h4, show 63 - (i - 1) = 1 + (63 - i) by omega]
      · simp [h4, show 64 ≤ 1 + (63 - i) by omega]
    · rw [if_neg h, BitVec.getLsbD_or, BitVec.getLsbD_ushiftRight, BitVec.getLsbD_shiftLeft]
      by_cases h4 : i - 1 < 64
      · rw [if_pos h4]
        simp [show 1 ≤ i by omega, show 127 - i < 64 by omega, show ¬ (127 - i < 63) by omega,
          show 64 ≤ 1 + (127 - i) by omega, show 63 - (i - 1) = 127 - i - 63 by omega]
      · rw [if_neg h4]
        simp [show 1 ≤ i by omega, show 127 - i < 63 by omega, show 127 - (i - 1) = 1 + (127 - i) by omega]
  rw [← key]
  unfold gfDouble
  by_cases h : FieldSpec.coeff z 127 = true
  · rw [if_pos (hc.mpr h), h]
    unfold FieldSpec.coeff
    dsimp only
    split <;> simp
  · rw [if_neg (fun e => h (hc.mp e)), eq_false_of_ne_true h]
    simp

/-- What the multiply's 4-bit shift does to each coefficient (R69). -/
theorem gfShift4_coeff (z : Elem) (i : Nat) (hi : i < 128) :
    FieldSpec.coeff (gfShift4 z) i =
      ((decide (4 ≤ i) && FieldSpec.coeff z (i - 4)) ^^
        FieldSpec.coeff ⟨(red (z.high.extractLsb' 0 4)).setWidth 64 <<< 48, 0⟩ i) := by
  unfold FieldSpec.coeff gfShift4
  dsimp only
  by_cases h : i < 64
  · rw [if_pos h, if_pos h, BitVec.getLsbD_xor, if_pos (by omega)]
    congr 1
    rw [BitVec.getLsbD_ushiftRight]
    by_cases h4 : 4 ≤ i
    · simp [h4, show 63 - (i - 4) = 4 + (63 - i) by omega]
    · simp [h4, show 64 ≤ 4 + (63 - i) by omega]
  · rw [if_neg h, if_neg h, BitVec.getLsbD_or, BitVec.getLsbD_ushiftRight, BitVec.getLsbD_shiftLeft]
    by_cases h4 : i - 4 < 64
    · rw [if_pos h4]
      simp [show 4 ≤ i by omega, show 127 - i < 64 by omega, show ¬ (127 - i < 60) by omega,
        show 64 ≤ 4 + (127 - i) by omega, show 63 - (i - 4) = 127 - i - 60 by omega]
    · rw [if_neg h4]
      simp [show 4 ≤ i by omega, show 127 - i < 60 by omega, show 127 - (i - 4) = 4 + (127 - i) by omega]

/-- The coefficients of an element's polynomial are the element's. -/
theorem toPoly_coeff (e : Elem) (i : Nat) (hi : i < 128) :
    (toPoly e).coeff i = if FieldSpec.coeff e i then 1 else 0 := by
  unfold toPoly polyOf
  rw [Polynomial.finsetSum_coeff, Finset.sum_eq_single i]
  · split <;> simp
  · intro b _ hb
    split <;> simp [Polynomial.coeff_X_pow, Ne.symm hb]
  · intro h
    exact absurd (Finset.mem_range.mpr hi) h

end Sys2Proof.FieldSpec
end

