-- ==== Sys2Proof/Laws/PerInstr.lean ====
section
/-! SUPPORT. Families of facts about the commands as syntax, one lemma per command: each is well-formed as it is
written (30_encoding.md R50, R51, R59), and its word has the opcode of its own row of the table (R52). -/

namespace Sys2Proof.Laws

/-- The written form of a command is well-formed. -/
def WrittenForm.Statement (i : Instr) : Prop := i.wellFormed = true

/-- The OP field of a command's word is that of the command's row in the opcode table. -/
def OwnOpcode.Statement (i : Instr) : Prop :=
  ∃ row ∈ opcodeTable, row.mnemonic = i.toLine.mnemonic ∧ fieldOP (encode i) = fieldOP row.pattern

theorem WrittenForm.nop : WrittenForm.Statement .nop := (by decide : Instr.nop.wellFormed = true)

theorem WrittenForm.gfadd (vd va vb : VReg) : WrittenForm.Statement (.gfadd vd va vb) := by
  simp +decide [WrittenForm.Statement, Instr.wellFormed, Instr.toLine, Line.wellFormed, Line.mnemonicKnown, Line.kindsMatch, Line.operandsInRange,
    operandKinds, Operand.kind, Operand.inRange, List.lookup]

theorem WrittenForm.gfdbl (vd va : VReg) : WrittenForm.Statement (.gfdbl vd va) := by
  simp +decide [WrittenForm.Statement, Instr.wellFormed, Instr.toLine, Line.wellFormed, Line.mnemonicKnown, Line.kindsMatch, Line.operandsInRange,
    operandKinds, Operand.kind, Operand.inRange, List.lookup]

theorem WrittenForm.gfmulh (vd va : VReg) : WrittenForm.Statement (.gfmulh vd va) := by
  simp +decide [WrittenForm.Statement, Instr.wellFormed, Instr.toLine, Line.wellFormed, Line.mnemonicKnown, Line.kindsMatch, Line.operandsInRange,
    operandKinds, Operand.kind, Operand.inRange, List.lookup]

theorem WrittenForm.buildtab (va : VReg) : WrittenForm.Statement (.buildtab va) := by
  simp +decide [WrittenForm.Statement, Instr.wellFormed, Instr.toLine, Line.wellFormed, Line.mnemonicKnown, Line.kindsMatch, Line.operandsInRange,
    operandKinds, Operand.kind, Operand.inRange, List.lookup]

theorem WrittenForm.rdtab (vd : VReg) (idx : TabIndex) : WrittenForm.Statement (.rdtab vd idx) := by
  have := idx.isLt
  simpa +decide [WrittenForm.Statement, Instr.wellFormed, Instr.toLine, Line.wellFormed, Line.mnemonicKnown, Line.kindsMatch, Line.operandsInRange,
    operandKinds, Operand.kind, Operand.inRange, List.lookup]

theorem WrittenForm.absorb (vd : VReg) (rs rn : SReg) : WrittenForm.Statement (.absorb vd rs rn) := by
  simp +decide [WrittenForm.Statement, Instr.wellFormed, Instr.toLine, Line.wellFormed, Line.mnemonicKnown, Line.kindsMatch, Line.operandsInRange,
    operandKinds, Operand.kind, Operand.inRange, List.lookup]

theorem WrittenForm.ctrinit (vd va : VReg) (rn : SReg) : WrittenForm.Statement (.ctrinit vd va rn) := by
  simp +decide [WrittenForm.Statement, Instr.wellFormed, Instr.toLine, Line.wellFormed, Line.mnemonicKnown, Line.kindsMatch, Line.operandsInRange,
    operandKinds, Operand.kind, Operand.inRange, List.lookup]

theorem WrittenForm.inc32 (vd va : VReg) : WrittenForm.Statement (.inc32 vd va) := by
  simp +decide [WrittenForm.Statement, Instr.wellFormed, Instr.toLine, Line.wellFormed, Line.mnemonicKnown, Line.kindsMatch, Line.operandsInRange,
    operandKinds, Operand.kind, Operand.inRange, List.lookup]

theorem WrittenForm.xorm (rd ra rb rn : SReg) : WrittenForm.Statement (.xorm rd ra rb rn) := by
  simp +decide [WrittenForm.Statement, Instr.wellFormed, Instr.toLine, Line.wellFormed, Line.mnemonicKnown, Line.kindsMatch, Line.operandsInRange,
    operandKinds, Operand.kind, Operand.inRange, List.lookup]

theorem WrittenForm.ovlp (rd ra rla rb rlb : SReg) : WrittenForm.Statement (.ovlp rd ra rla rb rlb) := by
  simp +decide [WrittenForm.Statement, Instr.wellFormed, Instr.toLine, Line.wellFormed, Line.mnemonicKnown, Line.kindsMatch, Line.operandsInRange,
    operandKinds, Operand.kind, Operand.inRange, List.lookup]

theorem WrittenForm.ldv (vd : VReg) (rs : SReg) : WrittenForm.Statement (.ldv vd rs) := by
  simp +decide [WrittenForm.Statement, Instr.wellFormed, Instr.toLine, Line.wellFormed, Line.mnemonicKnown, Line.kindsMatch, Line.operandsInRange,
    operandKinds, Operand.kind, Operand.inRange, List.lookup]

theorem WrittenForm.stv (va : VReg) (rs : SReg) : WrittenForm.Statement (.stv va rs) := by
  simp +decide [WrittenForm.Statement, Instr.wellFormed, Instr.toLine, Line.wellFormed, Line.mnemonicKnown, Line.kindsMatch, Line.operandsInRange,
    operandKinds, Operand.kind, Operand.inRange, List.lookup]

theorem WrittenForm.rev4 (rd rs : SReg) : WrittenForm.Statement (.rev4 rd rs) := by
  simp +decide [WrittenForm.Statement, Instr.wellFormed, Instr.toLine, Line.wellFormed, Line.mnemonicKnown, Line.kindsMatch, Line.operandsInRange,
    operandKinds, Operand.kind, Operand.inRange, List.lookup]

theorem opcodeTable_mem (k : Nat) (h : k < opcodeTable.length) : opcodeTable[k] ∈ opcodeTable := List.getElem_mem h

theorem OwnOpcode.nop : OwnOpcode.Statement .nop := ⟨_, opcodeTable_mem 0 (by decide), rfl, by decide⟩

theorem OwnOpcode.gfadd (vd va vb : VReg) : OwnOpcode.Statement (.gfadd vd va vb) :=
  ⟨_, opcodeTable_mem 1 (by decide), rfl,
    (assembleFields_fields 1 vd va vb 0 0 (by decide) vd.isLt va.isLt vb.isLt (by decide) (by decide)).1.trans (by decide)⟩

theorem OwnOpcode.gfdbl (vd va : VReg) : OwnOpcode.Statement (.gfdbl vd va) :=
  ⟨_, opcodeTable_mem 2 (by decide), rfl,
    (assembleFields_fields 2 vd va 0 0 0 (by decide) vd.isLt va.isLt (by decide) (by decide) (by decide)).1.trans (by decide)⟩

theorem OwnOpcode.gfmulh (vd va : VReg) : OwnOpcode.Statement (.gfmulh vd va) :=
  ⟨_, opcodeTable_mem 3 (by decide), rfl,
    (assembleFields_fields 3 vd va 0 0 0 (by decide) vd.isLt va.isLt (by decide) (by decide) (by decide)).1.trans (by decide)⟩

theorem OwnOpcode.buildtab (va : VReg) : OwnOpcode.Statement (.buildtab va) :=
  ⟨_, opcodeTable_mem 4 (by decide), rfl,
    (assembleFields_fields 4 va 0 0 0 0 (by decide) va.isLt (by decide) (by decide) (by decide) (by decide)).1.trans (by decide)⟩

theorem OwnOpcode.rdtab (vd : VReg) (idx : TabIndex) : OwnOpcode.Statement (.rdtab vd idx) :=
  ⟨_, opcodeTable_mem 5 (by decide), rfl,
    (assembleT_fields 0x05 vd idx.toNat (by decide) vd.isLt idx.isLt).1.trans (by decide)⟩

theorem OwnOpcode.absorb (vd : VReg) (rs rn : SReg) : OwnOpcode.Statement (.absorb vd rs rn) :=
  ⟨_, opcodeTable_mem 6 (by decide), rfl,
    (assembleFields_fields 6 vd rs rn 0 0 (by decide) vd.isLt rs.isLt rn.isLt (by decide) (by decide)).1.trans (by decide)⟩

theorem OwnOpcode.ctrinit (vd va : VReg) (rn : SReg) : OwnOpcode.Statement (.ctrinit vd va rn) :=
  ⟨_, opcodeTable_mem 7 (by decide), rfl,
    (assembleFields_fields 8 vd va rn 0 0 (by decide) vd.isLt va.isLt rn.isLt (by decide) (by decide)).1.trans (by decide)⟩

theorem OwnOpcode.inc32 (vd va : VReg) : OwnOpcode.Statement (.inc32 vd va) :=
  ⟨_, opcodeTable_mem 8 (by decide), rfl,
    (assembleFields_fields 9 vd va 0 0 0 (by decide) vd.isLt va.isLt (by decide) (by decide) (by decide)).1.trans (by decide)⟩

theorem OwnOpcode.xorm (rd ra rb rn : SReg) : OwnOpcode.Statement (.xorm rd ra rb rn) :=
  ⟨_, opcodeTable_mem 9 (by decide), rfl,
    (assembleFields_fields 12 rd ra rb rn 0 (by decide) rd.isLt ra.isLt rb.isLt rn.isLt (by decide)).1.trans (by decide)⟩

theorem OwnOpcode.ovlp (rd ra rla rb rlb : SReg) : OwnOpcode.Statement (.ovlp rd ra rla rb rlb) :=
  ⟨_, opcodeTable_mem 10 (by decide), rfl,
    (assembleFields_fields 16 rd ra rla rb rlb (by decide) rd.isLt ra.isLt rla.isLt rb.isLt rlb.isLt).1.trans (by decide)⟩

theorem OwnOpcode.ldv (vd : VReg) (rs : SReg) : OwnOpcode.Statement (.ldv vd rs) :=
  ⟨_, opcodeTable_mem 11 (by decide), rfl,
    (assembleFields_fields 20 vd rs 0 0 0 (by decide) vd.isLt rs.isLt (by decide) (by decide) (by decide)).1.trans (by decide)⟩

theorem OwnOpcode.stv (va : VReg) (rs : SReg) : OwnOpcode.Statement (.stv va rs) :=
  ⟨_, opcodeTable_mem 12 (by decide), rfl,
    (assembleFields_fields 21 va rs 0 0 0 (by decide) va.isLt rs.isLt (by decide) (by decide) (by decide)).1.trans (by decide)⟩

theorem OwnOpcode.rev4 (rd rs : SReg) : OwnOpcode.Statement (.rev4 rd rs) :=
  ⟨_, opcodeTable_mem 13 (by decide), rfl,
    (assembleFields_fields 24 rd rs 0 0 0 (by decide) rd.isLt rs.isLt (by decide) (by decide) (by decide)).1.trans (by decide)⟩

end Sys2Proof.Laws
end

