-- ==== Sys2Proof/Laws/Table.lean ====
section
/-! SUPPORT. The laws of the product table: reading an entry of a table, and what each entry of the table of H is made
of (40_gf128.md R66). -/

namespace Sys2Proof.Machine

@[simp] theorem tableEntry_setEntry_same (t : Vector Elem 16) (k : TabIndex) (e : Elem) :
    tableEntry (setEntry t k e) k = e := by simp [tableEntry, setEntry]

theorem tableEntry_setEntry_ne (t : Vector Elem 16) (k j : TabIndex) (e : Elem) (h : j ≠ k) :
    tableEntry (setEntry t k e) j = tableEntry t j := by
  have h' : k.toNat ≠ j.toNat := fun e => h (BitVec.eq_of_toNat_eq e.symm)
  simp [tableEntry, setEntry, Vector.getElem_set_ne, h']

@[simp] theorem tableEntry_replicate (k : TabIndex) (e : Elem) : tableEntry (Vector.replicate 16 e) k = e := by
  simp [tableEntry]

theorem table_ext (t u : Vector Elem 16) (h : ∀ k, tableEntry t k = tableEntry u k) : t = u := by
  apply Vector.ext
  intro i hi
  have := h (BitVec.ofNat 4 i)
  simpa [tableEntry, Nat.mod_eq_of_lt hi] using this

/-- One turn of R66's loop sets the entries of i and i + 1 and leaves the others. -/
theorem tableStep_entry (h : Elem) (t : Vector Elem 16) (i : Nat) (k : TabIndex) :
    tableEntry (tableStep h t i) k =
      if k = rev4 (BitVec.ofNat 4 (i + 1)) then
        gfAdd (gfDouble (tableEntry t (rev4 (BitVec.ofNat 4 (i / 2))))) h
      else if k = rev4 (BitVec.ofNat 4 i) then gfDouble (tableEntry t (rev4 (BitVec.ofNat 4 (i / 2))))
      else tableEntry t k := by
  unfold tableStep
  by_cases h1 : k = rev4 (BitVec.ofNat 4 (i + 1))
  · subst h1
    simp
  · rw [tableEntry_setEntry_ne _ _ _ _ h1, if_neg h1]
    by_cases h2 : k = rev4 (BitVec.ofNat 4 i)
    · subst h2
      simp
    · rw [tableEntry_setEntry_ne _ _ _ _ h2, if_neg h2]

/-- i times H as the table's loop makes it: double and add along the bits of i (R66). -/
def gfTimes (h : Elem) : Nat → Elem
  | 0 => gfZero
  | 1 => h
  | 2 => gfDouble h
  | 3 => gfAdd (gfDouble h) h
  | 4 => gfDouble (gfDouble h)
  | 5 => gfAdd (gfDouble (gfDouble h)) h
  | 6 => gfDouble (gfAdd (gfDouble h) h)
  | 7 => gfAdd (gfDouble (gfAdd (gfDouble h) h)) h
  | 8 => gfDouble (gfDouble (gfDouble h))
  | 9 => gfAdd (gfDouble (gfDouble (gfDouble h))) h
  | 10 => gfDouble (gfAdd (gfDouble (gfDouble h)) h)
  | 11 => gfAdd (gfDouble (gfAdd (gfDouble (gfDouble h)) h)) h
  | 12 => gfDouble (gfDouble (gfAdd (gfDouble h) h))
  | 13 => gfAdd (gfDouble (gfDouble (gfAdd (gfDouble h) h))) h
  | 14 => gfDouble (gfAdd (gfDouble (gfAdd (gfDouble h) h)) h)
  | 15 => gfAdd (gfDouble (gfAdd (gfDouble (gfAdd (gfDouble h) h)) h)) h
  | _ => gfZero

/-- The entry of the table of H at rev4(i) is i times H, made along the bits of i. -/
theorem buildProductTable_entry (h : Elem) (k : TabIndex) :
    tableEntry (buildProductTable h) k = gfTimes h (rev4 k).toNat := by
  have hb : ∀ k : TabIndex, k = 0 ∨ k = 1 ∨ k = 2 ∨ k = 3 ∨ k = 4 ∨ k = 5 ∨ k = 6 ∨ k = 7 ∨ k = 8 ∨ k = 9 ∨
      k = 10 ∨ k = 11 ∨ k = 12 ∨ k = 13 ∨ k = 14 ∨ k = 15 := by decide
  unfold buildProductTable
  simp only [List.foldl_cons, List.foldl_nil]
  rcases hb k with rfl | rfl | rfl | rfl | rfl | rfl | rfl | rfl | rfl | rfl | rfl | rfl | rfl | rfl | rfl | rfl <;>
    (simp +decide only [tableStep_entry, tableEntry_setEntry_ne, tableEntry_replicate, if_true, if_false]
     rfl)

end Sys2Proof.Machine
end

