-- ==== Sys2Proof/Tests/Slice0.lean ====
section
/-! SUPPORT. Tests: each expected value is taken from 30_encoding.md, 95_test_vectors.md or worked out by hand from a
rule; and for every statement with hypotheses a witness that they can be met, at the edges of each clause. -/

namespace Sys2Proof.Tests

open Sys2Proof.Machine Sys2Proof.Safety

/-! ## Small states -/

/-- A reset block of 64 bytes of BUF. -/
def st : State := State.resetWith 64 0

/-- The hash subkey H_A of 95_test_vectors.md. -/
def hA : Block := 0x66e94bd4ef8a2c3b884cfa59ca342b2e

/-- The data block C of 95_test_vectors.md. -/
def dataC : Block := 0x0388dace60b6a392f328c2b971b2fe78

/-- A block with a table of h, and b in V1. -/
def keyed (h b : Block) : State := (st.writeV 1 b).installTable (buildProductTable (elem h))

/-- The state after the host issues w, when it is a next state. -/
def after (w : Word32) (s : State) : State :=
  match hostStep (.issue w) s with
  | .next t => t
  | .fault _ => s
  | .refused _ => s

/-- The state after the steps of a list of transactions. -/
def play (n : Nat) (xs : List HostTxn) : State :=
  match Host.Core.run Sys2Proof.core n { st with pending := xs } with
  | .next t => t
  | .fault _ => st
  | .refused _ => st

/-- A block that has faulted. -/
def broken : State := raiseFault .overlap 0x3014C000 st

/-- A block in the middle of a command, as no run shows it between steps. -/
def working : State := { st with busy := true }

/-- R0 = d, R1 = a, R2 = b, R3 = n, with BUF[0..15] = 00 01 .. 0f and BUF[32..47] = a5. -/
def ranges (d a b n : Nat) : State :=
  (((((st.writeNumber 0 d).writeNumber 1 a).writeNumber 2 b).writeNumber 3 n).memWrite 0
    ((List.range 16).map (BitVec.ofNat 8))).memWrite 32 (List.replicate 16 0xa5)

/-- Whether a step answers this next state. -/
def answers (o : Host.Outcome State Fault Refusal) (t : State) : Bool :=
  match o with
  | .next u => decide (u = t)
  | .fault _ => false
  | .refused _ => false

theorem of_answers {o : Host.Outcome State Fault Refusal} {t : State} (h : answers o t = true) : o = .next t := by
  unfold answers at h
  split at h
  · rw [of_decide_eq_true h]
  · cases h
  · cases h

/-- Whether a step answers a next state. -/
def goesOn (o : Host.Outcome State Fault Refusal) : Bool :=
  match o with
  | .next _ => true
  | .fault _ => false
  | .refused _ => false

theorem of_goesOn {o : Host.Outcome State Fault Refusal} (h : goesOn o = true) : ∃ t, o = .next t := by
  unfold goesOn at h
  split at h
  · exact ⟨_, rfl⟩
  · cases h
  · cases h

/-! ## Well-formed written commands: an ill-formed term for each check, and well-formed ones -/

theorem test_wellFormed_good : (Line.mk "RDTAB" [.v 7, .idx 15]).wellFormed = true := by decide

theorem test_wellFormed_unknown_mnemonic :
    (Line.mk "GFMUL" []).mnemonicKnown = false ∧ (Line.mk "GFMUL" []).wellFormed = false := by decide

theorem test_wellFormed_wrong_kind :
    (Line.mk "LDV" [.v 0, .r 5]).kindsMatch = false ∧ (Line.mk "LDV" [.v 0, .r 5]).wellFormed = false := by decide

theorem test_wellFormed_wrong_count :
    (Line.mk "GFADD" [.v 0, .v 1]).kindsMatch = false ∧ (Line.mk "GFADD" [.v 0, .v 1]).wellFormed = false := by decide

theorem test_wellFormed_register_range :
    (Line.mk "GFDBL" [.v 0, .v 8]).operandsInRange = false ∧ (Line.mk "GFDBL" [.v 0, .v 8]).wellFormed = false := by
  decide

theorem test_wellFormed_index_range :
    (Line.mk "RDTAB" [.v 0, .idx 16]).operandsInRange = false ∧ (Line.mk "RDTAB" [.v 0, .idx 16]).wellFormed = false := by
  decide

/-! ## Decoding: each word written out as OP F1 F2 F3 F4 F5 and the low bits (R47-R49) -/

theorem test_decode_nop : decode 0b00000000000000000000000000000000 = .ok .nop := by decide
theorem test_decode_gfadd : decode 0b00000100101001100000000000000000 = .ok (.gfadd 1 2 3) := by decide
theorem test_decode_gfdbl : decode 0b00001011100000000000000000000000 = .ok (.gfdbl 7 0) := by decide
theorem test_decode_gfmulh : decode 0b00001101000100000000000000000000 = .ok (.gfmulh 2 1) := by decide
theorem test_decode_buildtab : decode 0b00010011100000000000000000000000 = .ok (.buildtab 7) := by decide
theorem test_decode_rdtab : decode 0b00010101110000000000000000000000 = .ok (.rdtab 3 8) := by decide
theorem test_decode_absorb : decode 0b00011000000101000000000000000000 = .ok (.absorb 0 1 2) := by decide
theorem test_decode_ctrinit : decode 0b00100000100010000000000000000000 = .ok (.ctrinit 1 0 4) := by decide
theorem test_decode_inc32 : decode 0b00100101000100000000000000000000 = .ok (.inc32 2 1) := by decide
theorem test_decode_xorm : decode 0b00110000000101001100000000000000 = .ok (.xorm 0 1 2 3) := by decide
theorem test_decode_ovlp : decode 0b01000011100101001110000000000000 = .ok (.ovlp 7 1 2 3 4) := by decide
theorem test_decode_ldv : decode 0b01010000010100000000000000000000 = .ok (.ldv 0 5) := by decide
theorem test_decode_stv : decode 0b01010100101000000000000000000000 = .ok (.stv 1 2) := by decide
theorem test_decode_rev4 : decode 0b01100001101000000000000000000000 = .ok (.rev4 3 2) := by decide

/-- The rows of 95_test_vectors.md L2.6 that are illegal: two unassigned opcodes, and a reserved bit of N, R3, R1, T
and R5. -/
theorem test_decode_illegal :
    decode 0x1C000000 = .error .unassignedOp ∧ decode 0xFC000000 = .error .unassignedOp ∧
      decode 0x00000001 = .error .reservedBit ∧ decode 0x04A60001 = .error .reservedBit ∧
      decode 0x10400000 = .error .reservedBit ∧ decode 0x14F80001 = .error .reservedBit ∧
      decode 0x4394E001 = .error .reservedBit := by decide

theorem test_decodeTableWord :
    decodeTableWord 32 0x04A60000 = some (.gfadd 1 2 3) ∧ decodeTableWord 32 0x00000001 = none := by decide

/-! ## The assembler (R59, R60) -/

theorem test_assemble_comment_and_case : assembleText "  gfadd v1, v2,v3 ; a comment" = some [0x04A60000] := by decide
theorem test_assemble_brackets : assembleText "XORM [r0], [r1], [r2], r3" = some [0x3014C000] := by decide
theorem test_assemble_hexadecimal : assembleText "RDTAB v3, 0xf" = some [0x15F80000] := by decide
theorem test_assemble_pseudo : assembleText "CTRSTART v1, v0, r4" = some [0x20880000, 0x24900000] := by decide
theorem test_assemble_ill_formed : assembleText "RDTAB v3, 16" = none ∧ assembleText "NOP v1" = none := by decide

/-! ## One step of each command (95_test_vectors.md L1, L2) -/

theorem test_nop : after 0x00000000 (keyed hA dataC) = keyed hA dataC := by decide +kernel

theorem test_gfadd_same_source_and_destination :
    (after 0x04940000 ((st.writeV 1 0x00112233445566778899aabbccddeeff).writeV 2
      0xffeeddccbbaa99887766554433221100)).readV 1 = 0xffffffffffffffffffffffffffffffff := by decide

theorem test_gfdbl_reduction :
    (after 0x0B100000 (st.writeV 1 0x00000000000000000000000000000003)).readV 6 =
      0xe1000000000000000000000000000001 := by decide

theorem test_gfdbl_word_boundary :
    (after 0x0B100000 (st.writeV 1 0x00000000000000010000000000000000)).readV 6 =
      0x00000000000000008000000000000000 := by decide

theorem test_buildtab_table : (after 0x14880000 (keyed hA 0)).readV 1 = 0x9d5d297a9df1458771099f4b39468565 := by
  decide +kernel

theorem test_buildtab_sets_tv :
    (after 0x10000000 (st.writeV 0 hA)).statusWord = 2 ∧
      (after 0x10000000 (st.writeV 0 hA)).readTab 14 = ⟨0xad27bccba3adb128, 0xae79b9e35da33472⟩ := by decide +kernel

theorem test_rdtab_after_reset : (after 0x15F80000 (st.writeV 3 hA)).readV 3 = 0 := by decide

theorem test_gfmulh : (after 0x0D100000 (keyed hA dataC)).readV 2 = 0x5e2ec746917062882c85b0685353deb7 := by
  decide +kernel

theorem test_gfmulh_no_table :
    (after 0x0C800000 st).statusWord = 0x0201 ∧ (after 0x0C800000 st).fcmd = 0x0C800000 := by decide

/-- Twenty bytes: a full chunk, then four bytes padded with twelve zeros. -/
theorem test_absorb_partial_chunk :
    (after 0x18140000 ((((keyed hA 0).memWrite 0 (Block.toBytes dataC ++ [1, 2, 3, 4])).writeNumber 1 0).writeNumber 2
      20)).readV 0 = 0x4677e49982495db32d222d2133659acb := by decide +kernel

theorem test_absorb_no_table_before_bounds :
    (after 0x18140000 (st.writeNumber 1 65)).statusWord = 0x0201 := by decide

theorem test_ctrinit :
    (after 0x20080000 ((st.writeV 0 0xcafebabefacedbaddecaf88811223344).writeNumber 4 12)).readV 0 =
      0xcafebabefacedbaddecaf88800000001 := by decide

theorem test_ctrinit_whole_length : (after 0x20080000 (st.writeNumber 4 0x100000000000000C)).statusWord = 0x0401 := by
  decide

theorem test_inc32_wrap :
    (after 0x25100000 (st.writeV 1 0xffffffffffffffffffffffffffffffff)).readV 2 =
      0xffffffffffffffffffffffff00000000 := by decide

theorem test_inc32_carry :
    (after 0x25100000 (st.writeV 1 0xffffffffffffffffffffffff00ffffff)).readV 2 =
      0xffffffffffffffffffffffff01000000 := by decide

/-- In place, the destination being the first input. -/
theorem test_xorm_in_place :
    (after 0x3014C000 (ranges 0 0 32 8)).memRead 0 9 = [0xa5, 0xa4, 0xa7, 0xa6, 0xa1, 0xa0, 0xa3, 0xa2, 8] := by decide

theorem test_xorm_overlap :
    after 0x3014C000 (ranges 4 0 32 8) = raiseFault .overlap 0x3014C000 (ranges 4 0 32 8) := by decide

theorem test_ovlp_one_shared_byte :
    (after 0x4394E000 ((((st.writeNumber 1 0x100).writeNumber 2 0x10).writeNumber 3 0x10F).writeNumber 4 0x10)).readR 7 =
      3 := by decide

theorem test_ovlp_same_registers :
    (after 0x40945000 ((st.writeNumber 1 0x40).writeNumber 2 0x10)).readR 1 = 1 := by decide

theorem test_ldv_unaligned :
    (after 0x50500000 ((st.memWrite 1 ((List.range 16).map (BitVec.ofNat 8))).writeNumber 5 1)).readV 0 =
      0x000102030405060708090a0b0c0d0e0f := by decide

theorem test_ldv_no_wrap : (after 0x50500000 (st.writeNumber 5 0xFFFFFFFFFFFFFFF8)).statusWord = 0x0601 := by decide

theorem test_stv :
    (after 0x54A00000 ((st.writeNumber 2 48).writeV 1 0xcafebabefacedbaddecaf88800000002)).buf =
      [(48, 0xca), (49, 0xfe), (50, 0xba), (51, 0xbe), (52, 0xfa), (53, 0xce), (54, 0xdb), (55, 0xad), (56, 0xde),
       (57, 0xca), (58, 0xf8), (59, 0x88), (60, 0), (61, 0), (62, 0), (63, 2)] := by decide

theorem test_stv_bounds : (after 0x54A00000 (st.writeNumber 2 49)).buf = [] := by decide

theorem test_rev4 : (after 0x62200000 (st.writeNumber 2 3)).readR 4 = 12 := by decide

theorem test_rev4_range : after 0x62200000 (st.writeNumber 2 16) = raiseFault .range 0x62200000 (st.writeNumber 2 16) := by
  decide

/-! ## The host port and the machine -/

theorem test_memory_wf : Memory.wf State.reset.buf ∧ Memory.wf (ranges 0 0 32 8).buf := by decide

/-- The command placed is the one the next step runs. -/
theorem test_withFetchWord :
    step (State.reset.withFetchWord 32 0x61A00000) = .next State.reset ∧
      step ((State.reset.writeNumber 2 1).withFetchWord 32 0x61A00000) =
        .next ((State.reset.writeNumber 2 1).writeNumber 3 8) :=
  ⟨of_answers (by decide +kernel), of_answers (by decide +kernel)⟩

/-- A faulted block discards a command, answers reads, and starts again from a reset (L2.7). -/
theorem test_fault_discard_reset :
    (play 4 [.issue 0x1C000000, .issue 0x61A00000, .rdStatus, .reset]).observed = [.status 0x0101] ∧
      (play 4 [.issue 0x1C000000, .issue 0x61A00000, .rdStatus, .reset]).statusWord = 0 := by decide

theorem test_host_write_read :
    (play 4 [.wrBuf 63 0x5a, .rdBuf 63, .wrR 7 9, .rdR 7]).observed = [.byte 0x5a, .scalar 9] := by decide

/-! ## Witnesses: the hypotheses of the statements can be met -/

theorem witness_EncodeOfDecodeIsTheWord : decode 0x63F00000 = .ok (.rev4 7 7) := by decide

theorem witness_DecoderAcceptsTheOpcodeTable :
    decode 0x63F00000 = .ok (.rev4 7 7) ∧ (⟨"REV4", 0x60000000, 0xFC0FFFFF⟩ : OpcodeRow) ∈ opcodeTable ∧
      (0x63F00000 : Word32) &&& 0xFC0FFFFF = 0x60000000 := by decide

theorem witness_ZeroWordIsTheOnlyNop :
    (0 : Word32).extractLsb' 26 6 = 0 ∧ decode 0 = .ok .nop := by decide

/-- The least, a middle and the greatest unassigned opcode. -/
theorem witness_UnassignedOpcodeRaisesIllegal :
    st.fault = false ∧
      (∀ row ∈ reservedMasks, ((0x1C000000 : Word32).extractLsb' 26 6).toNat ≠ row.1) ∧
      (∀ row ∈ reservedMasks, ((0x64000000 : Word32).extractLsb' 26 6).toNat ≠ row.1) ∧
      (∀ row ∈ reservedMasks, ((0xFFFFFFFF : Word32).extractLsb' 26 6).toNat ≠ row.1) := by
  decide

/-- The lowest reserved bit of a format, and the highest. -/
theorem witness_ReservedBitRaisesIllegal :
    st.fault = false ∧
      (∃ row ∈ reservedMasks, ((0x00000001 : Word32).extractLsb' 26 6).toNat = row.1 ∧ 0x00000001 &&& row.2 ≠ 0) ∧
      (∃ row ∈ reservedMasks, ((0x02000000 : Word32).extractLsb' 26 6).toNat = row.1 ∧ 0x02000000 &&& row.2 ≠ 0) ∧
      (∃ row ∈ reservedMasks, ((0x10400000 : Word32).extractLsb' 26 6).toNat = row.1 ∧ 0x10400000 &&& row.2 ≠ 0) ∧
      (∃ row ∈ reservedMasks, ((0x40000400 : Word32).extractLsb' 26 6).toNat = row.1 ∧ 0x40000400 &&& row.2 ≠ 0) := by
  decide

theorem witness_ChecksReportTheFirstFailure :
    broken.fault = true ∧ st.fault = false ∧ decode 0x1C000000 = .error .unassignedOp ∧
      decode 0x18140000 = .ok (.absorb 0 1 2) ∧ firstFailure (st.writeNumber 1 65) (.absorb 0 1 2) = some 2 ∧
      firstFailure ((keyed 0 0).writeNumber 1 65) (.absorb 0 1 2) = some 6 ∧
      firstFailure ((keyed 0 0).writeNumber 1 64) (.absorb 0 1 2) = none := by decide +kernel

/-- A run of `runCommand` into each fault, at the edge of its cause. -/
theorem witness_faults :
    runCommand 0x00000001 st = .next (faulted 1 0x00000001 st) ∧
      runCommand 0x0C800000 st = .next (faulted 2 0x0C800000 st) ∧
      runCommand 0x10000000 (keyed 0 0) = .next (faulted 3 0x10000000 (keyed 0 0)) ∧
      runCommand 0x20880000 (st.writeNumber 4 11) = .next (faulted 4 0x20880000 (st.writeNumber 4 11)) ∧
      runCommand 0x61A00000 (st.writeNumber 2 16) = .next (faulted 5 0x61A00000 (st.writeNumber 2 16)) ∧
      runCommand 0x50500000 (st.writeNumber 5 49) = .next (faulted 6 0x50500000 (st.writeNumber 5 49)) ∧
      runCommand 0x3014C000 (ranges 4 0 32 5) = .next (faulted 7 0x3014C000 (ranges 4 0 32 5)) :=
  ⟨of_answers (by decide +kernel), of_answers (by decide +kernel), of_answers (by decide +kernel),
    of_answers (by decide +kernel), of_answers (by decide +kernel), of_answers (by decide +kernel),
    of_answers (by decide +kernel)⟩

theorem witness_FaultsArePrecise :
    st.fault = false ∧ runCommand 0x00000001 st = .next (faulted 1 0x00000001 st) ∧
      (faulted 1 0x00000001 st).fault = true := ⟨rfl, of_answers (by decide +kernel), rfl⟩

theorem witness_EachFaultHasItsCodeAndCause :
    (ranges 4 0 32 5).fault = false ∧
      runCommand 0x3014C000 (ranges 4 0 32 5) = .next (faulted 7 0x3014C000 (ranges 4 0 32 5)) ∧
      (faulted 7 0x3014C000 (ranges 4 0 32 5)).fault = true :=
  ⟨rfl, of_answers (by decide +kernel), rfl⟩

theorem witness_FaultIsStickyUntilReset :
    broken.fault = true ∧ broken.busy = false ∧ HostTxn.wrBuf 63 1 ≠ .reset ∧ HostTxn.wrBuf 63 1 ≠ .rdStatus ∧
      (∀ w, HostTxn.wrBuf 63 1 ≠ .issue w) ∧ hostStep (.wrBuf 63 1) broken = .next (broken.writeByte 63 1) ∧
      ∃ u, hostStep (.wrBuf 63 1) { broken with fault := false } = .next u :=
  ⟨rfl, rfl, by decide, by decide, fun w h => (by cases h), of_answers (by decide +kernel),
    of_goesOn (by decide +kernel)⟩

/-- A command to come that decodes; and, for the clauses on any transaction and any word, a host write, a reset, and an
illegal word with a fault pending. -/
theorem witness_StepRunsTheDecodedCommand :
    let s : State := { st with pending := [.issue 0x61A00000, .rdR 3] }
    s.pending = .issue 0x61A00000 :: [.rdR 3] ∧ s.busy = false ∧ s.fault = false ∧
      decode 0x61A00000 = .ok (.rev4 3 2) ∧
      ({ working with pending := [.reset] } : State).pending = .reset :: [] ∧
      ({ broken with pending := [.wrBuf 63 1, .issue 0x00000001] } : State).pending =
        .wrBuf 63 1 :: [.issue 0x00000001] ∧ broken.busy = false := by decide

/-- Steps that take a host write, an illegal word, a discarded word and a reset. -/
theorem test_step_takes_each_transaction :
    (play 1 [.wrR 7 9]).readR 7 = 9 ∧ (play 1 [.issue 0x1C000000]).statusWord = 0x0101 ∧
      (play 2 [.issue 0x1C000000, .issue 0x00000001]).fcmd = 0x1C000000 ∧
      (play 2 [.issue 0x1C000000, .reset]).fault = false := by decide

theorem witness_IdleBlockKeepsItsState : State.reset.pending = [] := rfl

/-- The three invariants hold in a state whose next step goes on: it has a table, bytes in BUF and a command to
come. -/
theorem witness_StepKeeps :
    let s : State := { (keyed hA dataC).memWrite 48 (Block.toBytes dataC) with pending := [.issue 0x0D100000] }
    StatusConsistent s ∧ TableConsistent s ∧ BufConsistent s ∧ ∃ t, step s = .next t :=
  ⟨⟨by decide, by decide, by decide⟩, ⟨by decide, by decide +kernel⟩, ⟨by decide, by decide, by decide⟩,
    of_goesOn (by decide +kernel)⟩

/-- The two ends of the legal sizes. -/
theorem witness_ResetMeetsTheInvariants : 16 ≤ 16 ∧ 16 ≤ 2 ^ 64 ∧ (2 : Nat) ^ 64 ≤ 2 ^ 64 := by decide

theorem witness_TableValidFlagWriters :
    st.tv = false ∧ hostStep .reset (keyed hA 0) = .next (keyed hA 0).hostReset ∧
      (keyed hA 0).hostReset.tv ≠ (keyed hA 0).tv ∧
      hostStep (.issue 0x10000000) st = .next (st.installTable (buildProductTable (elem 0))) ∧
      (st.installTable (buildProductTable (elem 0))).tv ≠ st.tv ∧ TableConsistent st ∧ TableConsistent (keyed hA 0) ∧
      (keyed hA 0).tv = true :=
  ⟨rfl, rfl, by decide, of_answers (by decide +kernel), by decide, ⟨by decide, by decide⟩,
    ⟨by decide, by decide +kernel⟩, rfl⟩

theorem witness_TableIsFrozenWhileValid :
    (keyed hA 0).tv = true ∧ HostTxn.issue 0x10000000 ≠ .reset ∧
      ∃ t, hostStep (.issue 0x10000000) (keyed hA 0) = .next t :=
  ⟨rfl, by decide, of_goesOn (by decide +kernel)⟩

theorem witness_CommandsWriteOnlyTheirState :
    exec (.stv 1 2) st = .next (st.memWrite 0 (Block.toBytes (st.readV 1))) ∧
      (st.memWrite 0 (Block.toBytes (st.readV 1))).fault = st.fault ∧ st.fault = false ∧ writesV (.stv 1 2) = false ∧
      writesR (.stv 1 2) = false ∧ writesTable (.stv 1 2) = false ∧ writesBuf (.rev4 3 2) = false :=
  ⟨of_answers (by decide +kernel), rfl, rfl, rfl, rfl, rfl, rfl⟩

/-- Every byte that ABSORB of one byte at 15 reads has been written. -/
theorem witness_UnwrittenBytesDoNotMatter :
    let s := ((keyed 0 0).memWrite 15 [7]).writeNumber 1 15 |>.writeNumber 2 1
    (∀ a, readsAddress s (.absorb 0 1 2) a = true → Written s a) ∧ ∃ t, exec (.absorb 0 1 2) s = .next t := by
  refine ⟨fun a h => ?_, of_goesOn (by decide +kernel)⟩
  have h1 : 15 ≤ a ∧ a < 15 + 1 := of_decide_eq_true h
  obtain rfl : a = 15 := by omega
  exact ⟨7, by decide⟩

theorem witness_FailedRunKeepsItsFirstFault :
    let s : State := { broken with pending := [.issue 0x10000000, .rdStatus] }
    Failed s ∧ HostTxn.reset ∉ s.pending ∧
      ∃ t, Host.Core.run Sys2Proof.core 2 s = .next t := ⟨rfl, by decide, of_goesOn (by decide +kernel)⟩

/-- The last byte of BUF is a legal host address, the next is not. -/
theorem witness_HostTransactionsTakeEffect : st.busy = false ∧ 63 < st.bufSize := by decide

theorem witness_OnlyTransactionsNotAdmittedAreRefused :
    working.busy = true ∧ HostTxn.rdR 0 ≠ .rdStatus ∧ HostTxn.rdR 0 ≠ .reset ∧ st.busy = false ∧ st.bufSize ≤ 64 ∧
      (∀ a b, HostTxn.wrBuf 63 1 = .wrBuf a b → a < st.bufSize) ∧
      ∀ a, HostTxn.wrBuf 63 1 = .rdBuf a → a < st.bufSize := by
  refine ⟨rfl, by decide, by decide, rfl, by decide, fun a b h => ?_, fun a h => ?_⟩
  · cases h
    decide
  · cases h

theorem witness_AbsorbTakesChunksAndPads :
    (Block.toBytes dataC).length = 16 ∧ 0 < [(1 : Byte)].length ∧ [(1 : Byte)].length < 16 ∧
      (List.replicate 15 (1 : Byte)).length < 16 := by decide

theorem witness_RdtabCopiesTheEntry : TableConsistent (keyed hA 0) := ⟨by decide, by decide +kernel⟩

theorem witness_BuildtabInstallsTheTable : st.tv = false ∧ (keyed hA 0).tv = true := by decide

theorem witness_GfmulhMultipliesByH :
    (keyed hA dataC).tv = true ∧ TableConsistent (keyed hA dataC) ∧ st.tv = false :=
  ⟨rfl, ⟨by decide, by decide +kernel⟩, rfl⟩

/-- The range that ends at BUF_SIZE, the empty range at BUF_SIZE, and one past each. -/
theorem witness_AbsorbFoldsTheRange :
    (keyed hA 0).tv = true ∧ 48 + 16 ≤ (keyed hA 0).bufSize ∧ 64 + 0 ≤ (keyed hA 0).bufSize ∧
      (keyed hA 0).bufSize < 48 + 17 ∧ (keyed hA 0).bufSize < 65 + 0 ∧ st.tv = false ∧
      ((keyed hA 0).writeNumber 1 64).readR 1 = 64 := by decide +kernel

theorem witness_CtrinitLoadsTheInitialCounter :
    (st.writeNumber 4 12).readR 4 = 12 ∧ (st.writeNumber 4 11).readR 4 ≠ 12 ∧ (st.writeNumber 4 13).readR 4 ≠ 12 ∧
      (st.writeR 4 0x10000000C).readR 4 ≠ 12 := by decide

/-- Disjoint ranges that touch, the same range, and the empty range at BUF_SIZE inside another. -/
theorem witness_XormCombinesTheRanges :
    let ok (d a b n : Nat) :=
      let s := ranges d a b n
      let d := (s.readR 0).toNat
      let a := (s.readR 1).toNat
      let b := (s.readR 2).toNat
      let n := (s.readR 3).toNat
      d + n ≤ s.bufSize ∧ a + n ≤ s.bufSize ∧ b + n ≤ s.bufSize ∧
        (d = a ∨ d + n ≤ a ∨ a + n ≤ d ∨ n = 0) ∧ (d = b ∨ d + n ≤ b ∨ b + n ≤ d ∨ n = 0)
    ok 16 0 32 16 ∧ ok 0 0 32 16 ∧ ok 48 48 48 16 ∧ ok 64 0 0 0 ∧ ok 4 0 0 0 := by decide

/-- Each range one byte past BUF_SIZE, and each input overlapped by one byte from either side. -/
theorem witness_XormRefusesBadRanges :
    (ranges 49 0 0 16).bufSize < 49 + 16 ∧ ((ranges 49 0 0 16).readR 0).toNat = 49 ∧
      ((ranges 15 0 32 16).readR 0).toNat = 15 ∧ (15 : Nat) ≠ 0 ∧
      (∃ x, (15 ≤ x ∧ x < 15 + 16) ∧ 0 ≤ x ∧ x < 0 + 16) ∧ ∃ x, (17 ≤ x ∧ x < 17 + 16) ∧ 32 ≤ x ∧ x < 32 + 16 := by
  refine ⟨by decide, by decide, by decide, by decide, ⟨15, by decide⟩, 32, by decide⟩

theorem witness_AnyOverlapMeansASharedByte : (0 = 0 ∨ 5 = 0) ∧ anyOverlap 0 0 0 5 = false ∧ anyOverlap 0 5 4 1 = true := by
  decide

theorem witness_InexactOverlapMeansNotIdentical : 0 < 1 ∧ 0 < 2 ∧ 1 ≠ 2 ∧ inexactOverlap 7 1 7 2 = true := by decide

/-- Ranges that end exactly at 2^64 and one past it, identical, overlapping and disjoint. -/
theorem witness_OvlpReportsTheOverlap :
    let s := (st.writeR 1 0xFFFFFFFFFFFFFFFF).writeR 2 1
    let big := s.writeR 2 2
    (s.readR 1).toNat + (s.readR 2).toNat ≤ 2 ^ 64 ∧ 2 ^ 64 < (big.readR 1).toNat + (big.readR 2).toNat ∧
      (∃ x, (2 ^ 64 - 1 ≤ x ∧ x < 2 ^ 64) ∧ 2 ^ 64 - 1 ≤ x ∧ x < 2 ^ 64) ∧
      ¬∃ x : Nat, (0 ≤ x ∧ x < 0) ∧ 0 ≤ x ∧ x < 1 := by
  refine ⟨by decide, by decide, ⟨2 ^ 64 - 1, by decide⟩, ?_⟩
  rintro ⟨x, ⟨_, h⟩, _⟩
  exact Nat.not_lt_zero x h

theorem witness_Rev4CommandReversesOrFaults :
    ((st.writeNumber 2 15).readR 2).toNat ≤ 15 ∧ 15 < ((st.writeNumber 2 16).readR 2).toNat := by decide

/-- The last 16 bytes of BUF, and one past them. -/
theorem witness_LdvLoadsSixteenBytes :
    ((st.writeNumber 5 48).readR 5).toNat + 16 ≤ st.bufSize ∧ st.bufSize < ((st.writeNumber 5 49).readR 5).toNat + 16 := by
  decide

theorem witness_StvStoresSixteenBytes :
    ((st.writeNumber 2 48).readR 2).toNat + 16 ≤ st.bufSize ∧ st.bufSize < ((st.writeNumber 2 49).readR 2).toNat + 16 := by
  decide

theorem witness_LoadAfterStoreGivesItBack : ((st.writeNumber 2 48).readR 2).toNat + 16 ≤ st.bufSize := by decide

theorem witness_NopChangesNothing :
    st.fault = false ∧ (0x00000001 : Word32).extractLsb' 26 6 = 0 ∧ (0x00000001 : Word32).extractLsb' 0 26 ≠ 0 ∧
      (0x02000000 : Word32).extractLsb' 26 6 = 0 ∧ (0x02000000 : Word32).extractLsb' 0 26 ≠ 0 := by decide

theorem witness_PseudoInstructionsExpand : (st.writeNumber 4 12).readR 4 = 12 := by decide

end Sys2Proof.Tests
end

section
/-! PROOF. The product table is frozen while it is valid (10_state.md R20): only BUILDTAB installs a table, only when
TV = 0, and a host write reaches no table entry. -/

namespace Sys2Proof.Machine

variable {s t : State}

/-- BUILDTAB's refusal on a valid table (R20, 40_gf128.md R67). -/
theorem execBuildtab_of_valid (va : VReg) (h : s.tv = true) :
    execBuildtab va s = raise .tablock (.buildtab va) s := by simp [execBuildtab, h]

/-- A command leaves TAB and TV as they are, or it is a BUILDTAB that found TV = 0 and installed its table. -/
theorem exec_table_cases {i : Instr} (h : exec i s = .next t) :
    (t.tab = s.tab ∧ t.tv = s.tv) ∨
      ∃ va, i = .buildtab va ∧ s.tv = false ∧ t = s.installTable (buildProductTable (s.readElem va)) := by
  rcases exec_cases h with ⟨c, rfl⟩ | ⟨_, rfl⟩ | ⟨_, d, b, rfl⟩ | ⟨_, d, x, rfl⟩ | ⟨_, a, bs, _, rfl⟩ | hbuild
  · exact .inl ⟨raiseFault_tab c _ s, raiseFault_tv c _ s⟩
  · exact .inl ⟨rfl, rfl⟩
  · exact .inl ⟨writeV_tab s d b, writeV_tv s d b⟩
  · exact .inl ⟨writeR_tab s d x, writeR_tv s d x⟩
  · exact .inl ⟨memWrite_tab s a bs, memWrite_tv s a bs⟩
  · exact .inr hbuild

theorem exec_keeps_valid_table {i : Instr} (htv : s.tv = true) (h : exec i s = .next t) :
    t.tab = s.tab ∧ t.tv = true := by
  rcases exec_table_cases h with ⟨htab, hkeep⟩ | ⟨_, _, hinvalid, _⟩
  · exact ⟨htab, hkeep.trans htv⟩
  · simp [htv] at hinvalid

theorem runCommand_keeps_valid_table {w : Word32} (htv : s.tv = true) (h : runCommand w s = .next t) :
    t.tab = s.tab ∧ t.tv = true := by
  rcases runCommand_cases h with ⟨_, rfl⟩ | ⟨_, _, rfl⟩ | ⟨_, i, _, hexec⟩
  · exact ⟨rfl, htv⟩
  · exact ⟨raiseFault_tab _ _ s, htv⟩
  · exact exec_keeps_valid_table htv hexec

/-- `issue` runs the word between `startCommand` and `finishCommand`, which set BUSY only. -/
theorem issue_keeps_valid_table {w : Word32} (htv : s.tv = true) (h : issue w s = .next t) :
    t.tab = s.tab ∧ t.tv = true := by
  obtain ⟨u, hrun, rfl⟩ := issue_cases h
  simpa using runCommand_keeps_valid_table (s := s.startCommand) htv hrun

theorem hostStep_keeps_valid_table {x : HostTxn} (htv : s.tv = true) (hx : x ≠ .reset)
    (h : hostStep x s = .next t) : t.tab = s.tab ∧ t.tv = true := by
  rcases hostStep_cases h with ⟨_, hwrite⟩ | ⟨hreset, _⟩ | ⟨y, _, _, rfl⟩
  · rcases hwrite with ⟨i, v, _, rfl⟩ | ⟨i, b, _, rfl⟩ | ⟨a, b, _, _, rfl⟩ | ⟨w, _, hissue⟩
    · exact ⟨writeR_tab s i v, htv⟩
    · exact ⟨writeV_tab s i _, htv⟩
    · exact ⟨writeByte_tab s a b, htv⟩
    · exact issue_keeps_valid_table htv hissue
  · exact absurd hreset hx
  · exact ⟨observe_tab s y, htv⟩

end Sys2Proof.Machine

namespace Sys2Proof.Proofs

open Sys2Proof.Machine

/-- Settles O22: the host's transactions one by one, an issued command through `exec_table_cases`, and BUILDTAB's
own check. -/
theorem tableIsFrozenWhileValid : Obligations.TableIsFrozenWhileValid :=
  ⟨fun _ _ _ htv hx h => hostStep_keeps_valid_table htv hx h, fun va _ htv => execBuildtab_of_valid va htv⟩

end Sys2Proof.Proofs
end

section
/-! PROOF. The words that are no command (30_encoding.md R53-R55, R57): a word that decodes has an assigned opcode and
no reserved bit of that opcode's format, so any other word raises E_ILLEGAL. -/

namespace Sys2Proof

open Sys2Proof.Safety

/-- The decoder's formats reserve what the independent table of the opcodes says (R48, R49, R52). -/
theorem commandOf_mem_reservedMasks {op : Nat} {w : Word32} {fmt : Format} {i : Instr}
    (h : commandOf op w = some (fmt, i)) : (op, fmt.reservedMask) ∈ reservedMasks := by
  unfold commandOf at h
  split at h <;> cases h <;> decide

/-- An opcode has one reserved-bit mask. -/
theorem reservedMasks_unique :
    ∀ row ∈ reservedMasks, ∀ row' ∈ reservedMasks, row.1 = row'.1 → row.2 = row'.2 := by decide

theorem decode_ok_opcode_assigned {w : Word32} {i : Instr} (h : decode w = .ok i) :
    ∃ row ∈ reservedMasks, fieldOP w = row.1 ∧ w &&& row.2 = 0 := by
  obtain ⟨fmt, hcmd, hlow⟩ := (decode_ok_iff w i).mp h
  exact ⟨_, commandOf_mem_reservedMasks hcmd, rfl, (reservedMask_iff fmt w).mpr hlow⟩

theorem decode_not_ok_of_unassigned {w : Word32} (h : ∀ row ∈ reservedMasks, fieldOP w ≠ row.1) (i : Instr) :
    decode w ≠ .ok i := by
  intro hok
  obtain ⟨row, hrow, hop, _⟩ := decode_ok_opcode_assigned hok
  exact h row hrow hop

theorem decode_not_ok_of_reservedBit {w : Word32} {row : Nat × Word32} (hrow : row ∈ reservedMasks)
    (hop : fieldOP w = row.1) (hbit : w &&& row.2 ≠ 0) (i : Instr) : decode w ≠ .ok i := by
  intro hok
  obtain ⟨row', hrow', hop', hclear⟩ := decode_ok_opcode_assigned hok
  have hmask : row.2 = row'.2 := reservedMasks_unique row hrow row' hrow' (hop.symm.trans hop')
  exact hbit (hmask ▸ hclear)

/-- With OP = 0 every other bit is reserved, so a word that decodes has no bit set (R57). -/
theorem decode_ok_of_opcode_zero {w : Word32} {i : Instr} (hop : fieldOP w = 0) (h : decode w = .ok i) : w = 0 := by
  obtain ⟨fmt, hcmd, hlow⟩ := (decode_ok_iff w i).mp h
  rw [hop] at hcmd
  cases hcmd
  have hlow26 : w.toNat % 2 ^ 26 = 0 := hlow
  have hhigh6 : w.toNat / 2 ^ 26 % 64 = 0 := fieldOP_eq w ▸ hop
  have hbound := w.isLt
  apply BitVec.eq_of_toNat_eq
  simp only [BitVec.ofNat_eq_ofNat, BitVec.toNat_ofNat]
  omega

end Sys2Proof

namespace Sys2Proof.Machine

open Sys2Proof.Safety

/-- R53: with FAULT = 0 a word that is no command raises E_ILLEGAL and nothing else. -/
theorem runCommand_of_not_ok {w : Word32} {s : State} (hfault : s.fault = false) (h : ∀ i, decode w ≠ .ok i) :
    runCommand w s = .next (faulted 1 w s) := by
  cases hd : decode w with
  | ok i => exact absurd hd (h i)
  | error e =>
    have hrun : runCommand w s = .next (raiseFault .illegal w s) := by simp [runCommand, hfault, hd]
    exact hrun.trans (congrArg _ (raiseFault_eq_faulted .illegal w s))

end Sys2Proof.Machine

namespace Sys2Proof.Proofs

open Sys2Proof.Machine

/-- Settles O5: OP = 0 selects the format whose other 26 bits are all reserved. -/
theorem zeroWordIsTheOnlyNop : Obligations.ZeroWordIsTheOnlyNop :=
  ⟨rfl, fun _ _ hop hok => decode_ok_of_opcode_zero (congrArg BitVec.toNat hop) hok⟩

/-- Settles O6: a word that decodes would have its opcode in the table. -/
theorem unassignedOpcodeRaisesIllegal : Obligations.UnassignedOpcodeRaisesIllegal :=
  fun _ _ hfault hop => runCommand_of_not_ok hfault (decode_not_ok_of_unassigned hop)

/-- Settles O7: a word that decodes would have every bit of its opcode's one mask clear. -/
theorem reservedBitRaisesIllegal : Obligations.ReservedBitRaisesIllegal :=
  fun _ _ hfault ⟨_, hrow, hop, hbit⟩ =>
    runCommand_of_not_ok hfault (decode_not_ok_of_reservedBit hrow hop hbit)

end Sys2Proof.Proofs
end

section
/-! PROOF. The two words of a field element (40_gf128.md R62, R63, R65): where the coefficients stand in the words and
in the 16-byte string, that the element view and the byte view are inverse, and that addition is XOR in each view. -/

namespace Sys2Proof.Machine

open Sys2Proof.FieldSpec

/-- The 128-bit integer of R62's second sentence. -/
theorem bytes_toNat (e : Elem) : (bytes e).toNat = e.low.toNat * 2 ^ 64 + e.high.toNat := by
  calc (bytes e).toNat = e.low.toNat <<< 64 ||| e.high.toNat := BitVec.toNat_append e.low e.high
    _ = e.low.toNat <<< 64 + e.high.toNat := (Nat.shiftLeft_add_eq_or_of_lt e.high.isLt _).symm
    _ = e.low.toNat * 2 ^ 64 + e.high.toNat := by rw [Nat.shiftLeft_eq]

/-- The 128-bit integer holds c_i at bit 127 - i (R62). -/
theorem coeff_eq_bytes_getLsbD (e : Elem) (i : Nat) (hi : i < 128) : coeff e i = (bytes e).getLsbD (127 - i) := by
  rw [bytes_elem_getLsbD]
  unfold FieldSpec.coeff
  by_cases hlow : i < 64
  · rw [if_pos hlow, if_neg (by omega), show 127 - i - 64 = 63 - i by omega]
  · rw [if_neg hlow, if_pos (by omega)]

/-- c_i is bit 7 - i % 8 of byte i / 8 of the string (R63). -/
theorem coeff_elem_eq_byte (b : Block) (i : Nat) (hi : i < 128) :
    coeff (elem b) i = (Block.byte b (i / 8)).getLsbD (7 - i % 8) := by
  rw [coeff_eq_bytes_getLsbD _ i hi, bytes_elem, Block.getLsbD_eq_byte b _ (by omega),
    show 15 - (127 - i) / 8 = i / 8 by omega, show (127 - i) % 8 = 7 - i % 8 by omega]

/-- The element view undoes the byte view, as `bytes_elem` says of the other order (R63). -/
theorem elem_bytes (e : Elem) : elem (bytes e) = e := by
  apply elem_ext_coeff
  intro i hi
  rw [coeff_eq_bytes_getLsbD _ i hi, coeff_eq_bytes_getLsbD e i hi, bytes_elem]

theorem elem_low_toNat (b : Block) : (elem b).low.toNat = b.toNat / 2 ^ 64 := by
  have hb : b.toNat < 2 ^ 128 := b.isLt
  have hlow : (elem b).low.toNat = b.toNat / 2 ^ 64 % 2 ^ 64 := by
    simp [elem, BitVec.extractLsb'_toNat, Nat.shiftRight_eq_div_pow]
  omega

theorem elem_high_toNat (b : Block) : (elem b).high.toNat = b.toNat % 2 ^ 64 := by
  simp [elem, BitVec.extractLsb'_toNat]

theorem gfAdd_comm (x y : Elem) : gfAdd x y = gfAdd y x := by
  simp [gfAdd, BitVec.xor_comm]

theorem gfAdd_assoc (x y z : Elem) : gfAdd (gfAdd x y) z = gfAdd x (gfAdd y z) := by
  simp [gfAdd, BitVec.xor_assoc]

theorem gfAdd_self (x : Elem) : gfAdd x x = gfZero := by
  simp [gfAdd, gfZero]

@[simp] theorem gfZero_gfAdd (x : Elem) : gfAdd gfZero x = x := by
  simp [gfAdd, gfZero]

theorem bytes_gfAdd (x y : Elem) : bytes (gfAdd x y) = bytes x ^^^ bytes y := by
  apply BitVec.eq_of_getLsbD_eq
  intro j hj
  rw [BitVec.getLsbD_xor, bytes_elem_getLsbD, bytes_elem_getLsbD, bytes_elem_getLsbD]
  split <;> exact BitVec.getLsbD_xor

theorem Block.byte_xor (s t : Block) (k : Nat) : Block.byte (s ^^^ t) k = Block.byte s k ^^^ Block.byte t k := by
  simp [Block.byte, BitVec.extractLsb'_xor]

end Sys2Proof.Machine

namespace Sys2Proof.Proofs

open Sys2Proof.Machine Sys2Proof.FieldSpec

/-- Settles O28: the two words are the definition of c_i; the 128-bit integer is their concatenation. -/
theorem coefficientsStandInReversedBitOrder : Obligations.CoefficientsStandInReversedBitOrder :=
  fun e => ⟨fun _ hi => if_pos hi, fun _ hi _ => if_neg (by omega), bytes_toNat e, coeff_eq_bytes_getLsbD e⟩

/-- Settles O29: both words as quotient and remainder by 2^64, which is what the big-endian halves are. -/
theorem elementViewIsBigEndian : Obligations.ElementViewIsBigEndian := by
  refine ⟨fun b => ⟨?low, ?high, coeff_elem_eq_byte b 0 (by omega), coeff_elem_eq_byte b 127 (by omega),
    bytes_elem b⟩, elem_bytes⟩
  case low => rw [elem_low_toNat, beNat_take b 8 (by omega)]
  case high => rw [elem_high_toNat, beNat_drop b 8 (by omega)]

/-- Settles O30: XOR's own laws on each word, and `bytes_gfAdd` byte by byte. -/
theorem additionIsExclusiveOr : Obligations.AdditionIsExclusiveOr :=
  ⟨fun _ _ => rfl, gfAdd_comm, gfAdd_assoc, gfAdd_self,
    fun x y k _ => by rw [bytes_gfAdd, Block.byte_xor]⟩

end Sys2Proof.Proofs
end

section
/-! PROOF. Doubling and the reduction table (40_gf128.md R64, R68): x^128 reduces to 1 + x + x^2 + x^7, which is what
doubling folds in, and the four terms that a 4-bit shift pushes out are doublings of that one. -/

namespace Sys2Proof.FieldSpec

open Polynomial Sys2Proof.Machine

theorem polyOf_and (n : Nat) (b : Bool) (c : Nat → Bool) :
    polyOf n (fun i => b && c i) = if b then polyOf n c else 0 := by
  cases b
  · exact polyOf_false n _ fun _ _ => rfl
  · exact polyOf_congr n _ _ fun _ _ => rfl

theorem toPoly_gfZero : toPoly gfZero = 0 :=
  polyOf_false 128 _ fun i _ => by simp [FieldSpec.coeff, gfZero]

/-- The element that doubling folds in when c_127 was 1 (R64). -/
def foldElem : Elem := ⟨0xe100000000000000, 0⟩

/-- Only the first byte of the folded element is set. -/
theorem coeff_foldElem_of_ge (i : Nat) (hi : 8 ≤ i) : FieldSpec.coeff foldElem i = false := by
  have hlow : foldElem.low = 0xe1#64 <<< 56 := by decide
  unfold FieldSpec.coeff
  split
  · rw [hlow, BitVec.getLsbD_shiftLeft]
    simp [show 63 - i < 56 by omega]
  · exact BitVec.getLsbD_zero

theorem toPoly_foldElem : toPoly foldElem = 1 + X + X ^ 2 + X ^ 7 := by
  have hrest : polyOf 120 (fun i => FieldSpec.coeff foldElem (8 + i)) = 0 :=
    polyOf_false 120 _ fun i _ => coeff_foldElem_of_ge (8 + i) (by omega)
  have hfirst : polyOf 8 (FieldSpec.coeff foldElem) = 1 + X + X ^ 2 + X ^ 7 := by
    rw [polyOf_congr 8 _ (fun i => i ∈ [0, 1, 2, 7]) (by decide)]
    simp [polyOf, Finset.sum_range_succ]
  rw [toPoly, polyOf_split 8 120, hrest, hfirst, mul_zero, add_zero]

/-- R61: x^128 reduces to the field polynomial's other terms. -/
theorem toPoly_foldElem_fieldEq : FieldEq (toPoly foldElem) (X ^ 128) := by
  refine ⟨1, ?_⟩
  calc toPoly foldElem = 1 + X + X ^ 2 + X ^ 7 + (X ^ 128 + X ^ 128) := by
        rw [toPoly_foldElem, poly_add_self, add_zero]
    _ = X ^ 128 + fieldPoly * 1 := by
        unfold fieldPoly
        ring

/-- Moving the coefficients k places up and adding the reduction p of the terms that leave multiplies by x^k. -/
theorem shift_fieldEq (e : Elem) {k : Nat} (hk : k ≤ 128) {p : (ZMod 2)[X]}
    (hp : FieldEq p (∑ b ∈ Finset.range k, if FieldSpec.coeff e (128 - k + b) then X ^ (128 + b) else 0)) :
    FieldEq (polyOf 128 (fun i => decide (k ≤ i) && FieldSpec.coeff e (i - k)) + p) (X ^ k * toPoly e) := by
  rw [toPoly, ← polyOf_shift k hk]
  exact (FieldEq.refl _).add hp

/-- Doubling moves the coefficients one place up and folds in the reduction of x^128 (R64). -/
theorem toPoly_gfDouble (e : Elem) :
    toPoly (gfDouble e) = polyOf 128 (fun i => decide (1 ≤ i) && FieldSpec.coeff e (i - 1)) +
      if FieldSpec.coeff e 127 then toPoly foldElem else 0 := by
  rw [toPoly, toPoly, ← polyOf_and, ← polyOf_xor]
  exact polyOf_congr 128 _ _ (gfDouble_coeff e)

theorem gfDouble_fieldEq (e : Elem) : FieldEq (toPoly (gfDouble e)) (X * toPoly e) := by
  have hfold : FieldEq (if FieldSpec.coeff e 127 then toPoly foldElem else 0)
      (∑ b ∈ Finset.range 1, if FieldSpec.coeff e (128 - 1 + b) then X ^ (128 + b) else 0) := by
    rw [Finset.sum_range_one]
    split
    · exact toPoly_foldElem_fieldEq
    · exact .refl 0
  rw [toPoly_gfDouble, ← pow_one X]
  exact shift_fieldEq e (by omega) hfold

/-- Doubling a product's factor doubles the product. -/
theorem FieldEq.gfDouble {e : Elem} {p : (ZMod 2)[X]} (h : FieldEq (toPoly e) p) :
    FieldEq (toPoly (gfDouble e)) (X * p) :=
  (gfDouble_fieldEq e).trans (h.mul_left X)

/-- RED[m] where R68 puts it. -/
def redElem (m : BitVec 4) : Elem := ⟨(red m).setWidth 64 <<< 48, 0⟩

theorem red_xor : ∀ m n : BitVec 4, red (m ^^^ n) = red m ^^^ red n := by decide

theorem redElem_xor (m n : BitVec 4) : redElem (m ^^^ n) = gfAdd (redElem m) (redElem n) := by
  simp [redElem, gfAdd, red_xor, BitVec.setWidth_xor, BitVec.shiftLeft_xor_distrib]

theorem overflowPoly_xor (m n : BitVec 4) : overflowPoly (m ^^^ n) = overflowPoly m + overflowPoly n := by
  rw [overflowPoly, overflowPoly, overflowPoly, ← Finset.sum_add_distrib]
  refine Finset.sum_congr rfl fun b _ => ?_
  rw [BitVec.getLsbD_xor]
  cases m.getLsbD b <;> cases n.getLsbD b <;> simp [poly_add_self]

/-- What R68 asks of RED[m]. -/
def Reduces (m : BitVec 4) : Prop := FieldEq (toPoly (redElem m)) (overflowPoly m)

theorem Reduces.xor {m n : BitVec 4} (hm : Reduces m) (hn : Reduces n) : Reduces (m ^^^ n) := by
  rw [Reduces, redElem_xor, toPoly_add, overflowPoly_xor]
  exact FieldEq.add hm hn

theorem reduces_zero : Reduces 0 := by
  have hzero : redElem 0 = gfZero := by decide
  rw [Reduces, hzero, toPoly_gfZero]
  simp [overflowPoly, FieldEq.refl]

theorem overflowPoly_twoPow (b : Nat) (hb : b < 4) : overflowPoly (.twoPow 4 b) = X ^ (131 - b) := by
  have hbit (j : Nat) : (BitVec.twoPow 4 b).getLsbD j = decide (b = j) := by simp [BitVec.getLsbD_twoPow, hb]
  simp [overflowPoly, hbit, hb]

theorem redElem_top : redElem (.twoPow 4 3) = foldElem := by decide

/-- A bit one place lower in m stands for one more power of x. -/
theorem redElem_twoPow : ∀ b < 3, redElem (.twoPow 4 b) = gfDouble (redElem (.twoPow 4 (b + 1))) := by decide

theorem reduces_twoPow (b : Nat) (hb : b ≤ 3) : Reduces (.twoPow 4 b) := by
  induction hb using Nat.decreasingInduction with
  | self =>
    rw [Reduces, redElem_top, overflowPoly_twoPow 3 (by omega)]
    exact toPoly_foldElem_fieldEq
  | of_succ b hb ih =>
    rw [Reduces, overflowPoly_twoPow (b + 1) (by omega)] at ih
    rw [Reduces, redElem_twoPow b hb, overflowPoly_twoPow b (by omega),
      show 131 - b = 131 - (b + 1) + 1 by omega, pow_succ']
    exact ih.gfDouble

theorem nibble_eq_xor_bits : ∀ m : BitVec 4,
    (m &&& .twoPow 4 0) ^^^ (m &&& .twoPow 4 1) ^^^ (m &&& .twoPow 4 2) ^^^ (m &&& .twoPow 4 3) = m := by decide

/-- R68, by linearity from the four single bits. -/
theorem reduces (m : BitVec 4) : Reduces m := by
  have hbit (b : Nat) (hb : b ≤ 3) : Reduces (m &&& .twoPow 4 b) := by
    rw [BitVec.and_twoPow]
    split
    · exact reduces_twoPow b hb
    · exact reduces_zero
  have hbits := (((hbit 0 (by omega)).xor (hbit 1 (by omega))).xor (hbit 2 (by omega))).xor (hbit 3 (by omega))
  rwa [nibble_eq_xor_bits] at hbits

end Sys2Proof.FieldSpec

namespace Sys2Proof.Machine

open Sys2Proof.FieldSpec

theorem high_and_one_iff (e : Elem) : e.high &&& 1 = 1 ↔ coeff e 127 = true := by
  change e.high &&& 1#64 = 1 ↔ e.high.getLsbD 0 = true
  rw [BitVec.and_one_eq_setWidth_ofBool_getLsbD]
  cases e.high.getLsbD 0 <;> decide

theorem gfDouble_high (e : Elem) : (gfDouble e).high = e.high >>> 1 ||| e.low <<< 63 := by
  unfold gfDouble
  split <;> rfl

theorem gfDouble_low (e : Elem) :
    (gfDouble e).low = if coeff e 127 then e.low >>> 1 ^^^ 0xe100000000000000 else e.low >>> 1 := by
  unfold gfDouble
  simp only [high_and_one_iff]
  split <;> rfl

theorem gfDouble_high_toNat (e : Elem) :
    (gfDouble e).high.toNat = e.high.toNat / 2 + e.low.toNat % 2 * 2 ^ 63 := by
  have hhalf : e.high.toNat / 2 < 2 ^ 63 := by omega
  have htop : e.low.toNat * 2 ^ 63 % 2 ^ 64 = 2 ^ 63 * (e.low.toNat % 2) := by omega
  rw [gfDouble_high, BitVec.toNat_or, BitVec.toNat_ushiftRight, BitVec.toNat_shiftLeft, Nat.shiftRight_eq_div_pow,
    Nat.shiftLeft_eq, pow_one, htop, Nat.or_comm, ← Nat.two_pow_add_eq_or_of_lt hhalf]
  ring

end Sys2Proof.Machine

namespace Sys2Proof.Proofs

open Sys2Proof.Machine Sys2Proof.FieldSpec

/-- Settles O31: the coefficients move one place up, and c_127 comes back as the reduction of x^128. -/
theorem doubleIsTimesX : Obligations.DoubleIsTimesX :=
  fun e => ⟨gfDouble_fieldEq e, gfDouble_high_toNat e, gfDouble_low e⟩

/-- Settles O32: by linearity from the single bits, each of which is the double of the next. -/
theorem reductionTableReducesTheOverflow : Obligations.ReductionTableReducesTheOverflow :=
  ⟨reduces, red_xor, by decide⟩

end Sys2Proof.Proofs
end

section
/-! PROOF. The product table (40_gf128.md R66): the entry at rev4(i) is made of that at rev4(i / 2) by doubling and, for
odd i, adding H, which is Horner's rule for the polynomial of i. -/

namespace Sys2Proof.FieldSpec

open Polynomial Sys2Proof.Machine

/-- Horner's rule for the polynomial of a number below 16: bit 0, and x times the polynomial of the other bits. -/
theorem smallPoly_eq (i : Nat) (hi : i < 16) :
    smallPoly i = (if i % 2 = 1 then 1 else 0) + X * smallPoly (i / 2) := by
  have hfirst : polyOf 1 i.testBit = if i % 2 = 1 then 1 else 0 := by
    simp [polyOf, Nat.testBit_zero]
  have hothers : polyOf 3 (fun t => i.testBit (1 + t)) = polyOf 3 (i / 2).testBit :=
    polyOf_congr 3 _ _ fun t _ => by rw [add_comm, Nat.testBit_succ]
  have htop : polyOf 1 (fun t => (i / 2).testBit (3 + t)) = 0 :=
    polyOf_false 1 _ fun t ht => Nat.testBit_lt_two_pow <| by
      obtain rfl : t = 0 := by omega
      omega
  calc smallPoly i = polyOf 1 i.testBit + X ^ 1 * polyOf 3 (fun t => i.testBit (1 + t)) := polyOf_split 1 3 _
    _ = (if i % 2 = 1 then 1 else 0) + X * polyOf 3 (i / 2).testBit := by rw [hfirst, hothers, pow_one]
    _ = (if i % 2 = 1 then 1 else 0) + X * smallPoly (i / 2) := by
      rw [smallPoly, polyOf_split 3 1, htop, mul_zero, add_zero]

end Sys2Proof.FieldSpec

namespace Sys2Proof.Machine

open Sys2Proof.FieldSpec Polynomial

theorem rev4_rev4 : ∀ k : BitVec 4, rev4 (rev4 k) = k := by decide

/-- R66's first clause: entry rev4(i) of the table of H is i times H. -/
theorem tableEntry_rev4 (h : Elem) (i : BitVec 4) : tableEntry (buildProductTable h) (rev4 i) = gfTimes h i.toNat := by
  rw [buildProductTable_entry, rev4_rev4]

/-- The multiples of H by their bits: double the half, and add H for an odd number (R66). -/
theorem gfTimes_eq (h : Elem) (i : Nat) (hi : i < 16) :
    gfTimes h i = if i % 2 = 1 then gfAdd (gfDouble (gfTimes h (i / 2))) h else gfDouble (gfTimes h (i / 2)) := by
  have hdouble : gfDouble gfZero = gfZero := by decide
  match i with
  | 0 | 1 => simp [gfTimes, hdouble]
  | 2 | 3 | 4 | 5 | 6 | 7 | 8 | 9 | 10 | 11 | 12 | 13 | 14 | 15 => rfl
  | i + 16 => omega

theorem gfTimes_fieldEq (h : Elem) (i : Nat) (hi : i < 16) :
    FieldEq (toPoly (gfTimes h i)) (smallPoly i * toPoly h) := by
  induction i using Nat.strong_induction_on with
  | _ i ih =>
    by_cases hzero : i = 0
    · subst hzero
      have hsmall : smallPoly 0 = 0 := polyOf_false 4 _ fun t _ => Nat.zero_testBit t
      rw [gfTimes, toPoly_gfZero, hsmall, zero_mul]
      exact .refl 0
    · have hhalf : FieldEq (toPoly (gfDouble (gfTimes h (i / 2)))) (X * (smallPoly (i / 2) * toPoly h)) :=
        (ih (i / 2) (by omega) (by omega)).gfDouble
      rw [gfTimes_eq h i hi, smallPoly_eq i hi, add_mul, mul_assoc, add_comm]
      split
      · rw [toPoly_add, one_mul]
        exact hhalf.add (.refl _)
      · rw [zero_mul, add_zero]
        exact hhalf

end Sys2Proof.Machine

namespace Sys2Proof.Proofs

open Sys2Proof.Machine Sys2Proof.FieldSpec

/-- Settles O33: every clause is about `gfTimes`, which `tableEntry_rev4` finds at rev4(i). -/
theorem productTableHoldsTheMultiples : Obligations.ProductTableHoldsTheMultiples := by
  intro h
  refine ⟨fun i => ?product, tableEntry_rev4 h 0, tableEntry_rev4 h 1, fun i hi => ?loop⟩
  case product =>
    rw [tableEntry_rev4]
    exact gfTimes_fieldEq h i.toNat i.isLt
  case loop =>
    have heven : i % 2 = 0 ∧ i < 16 := by
      revert i
      decide
    have hentry (n : Nat) (hn : n < 16) :
        tableEntry (buildProductTable h) (rev4 (BitVec.ofNat 4 n)) = gfTimes h n := by
      rw [tableEntry_rev4, BitVec.toNat_ofNat, Nat.mod_eq_of_lt hn]
    rw [hentry i (by omega), hentry (i / 2) (by omega), hentry (i + 1) (by omega),
      gfTimes_eq h (i + 1) (by omega), gfTimes_eq h i (by omega), if_neg (by omega), if_pos (by omega),
      show (i + 1) / 2 = i / 2 by omega]
    exact ⟨rfl, rfl⟩

end Sys2Proof.Proofs
end

section
/-! PROOF. The table-driven multiply (40_gf128.md R69, R70): each turn of the loop is one step of Horner's rule with
four coefficients at a time, and the elements of the field are told apart by their polynomials. -/

namespace Sys2Proof.FieldSpec

open Polynomial Sys2Proof.Machine

/-- The terms that leave the low nibble of `high` are c_124..c_127, in falling order of the bits (R68, R69). -/
theorem overflowPoly_low_nibble (z : Elem) : overflowPoly (z.high.extractLsb' 0 4) =
    ∑ b ∈ Finset.range 4, if FieldSpec.coeff z (124 + b) then X ^ (128 + b) else 0 := by
  rw [overflowPoly, ← Finset.sum_range_reflect]
  refine Finset.sum_congr rfl fun b hb => ?_
  have hb4 : b < 4 := Finset.mem_range.mp hb
  have hbit : (z.high.extractLsb' 0 4).getLsbD (4 - 1 - b) = FieldSpec.coeff z (124 + b) := by
    rw [BitVec.getLsbD_extractLsb', FieldSpec.coeff, if_neg (by omega), show 0 + (4 - 1 - b) = 127 - (124 + b) by omega]
    simp
    omega
  rw [hbit, show 131 - (4 - 1 - b) = 128 + b by omega]

/-- The multiply's 4-bit shift moves the coefficients four places up and adds the reduction of what leaves (R69). -/
theorem toPoly_gfShift4 (z : Elem) :
    toPoly (gfShift4 z) = polyOf 128 (fun i => decide (4 ≤ i) && FieldSpec.coeff z (i - 4)) +
      toPoly (redElem (z.high.extractLsb' 0 4)) := by
  rw [toPoly, toPoly, ← polyOf_xor]
  exact polyOf_congr 128 _ _ (gfShift4_coeff z)

theorem gfShift4_fieldEq (z : Elem) : FieldEq (toPoly (gfShift4 z)) (X ^ 4 * toPoly z) := by
  have hreduce := reduces (z.high.extractLsb' 0 4)
  rw [Reduces, overflowPoly_low_nibble] at hreduce
  rw [toPoly_gfShift4]
  exact shift_fieldEq z (by omega) hreduce

/-- The low word holds c_0..c_63 and the high word c_64..c_127, each from its top bit down (R62). -/
theorem toPoly_eq_words (e : Elem) : toPoly e =
    polyOf 64 (fun i => e.low.getLsbD (63 - i)) + X ^ 64 * polyOf 64 (fun i => e.high.getLsbD (63 - i)) := by
  have hlow : polyOf 64 (FieldSpec.coeff e) = polyOf 64 (fun i => e.low.getLsbD (63 - i)) :=
    polyOf_congr 64 _ _ fun i hi => if_pos hi
  have hhigh : polyOf 64 (fun i => FieldSpec.coeff e (64 + i)) = polyOf 64 (fun i => e.high.getLsbD (63 - i)) :=
    polyOf_congr 64 _ _ fun i _ => by
      rw [FieldSpec.coeff, if_neg (by omega), show 127 - (64 + i) = 63 - i by omega]
  rw [toPoly, polyOf_split 64 64, hlow, hhigh]

theorem polyOf_degree_lt (n : Nat) (c : Nat → Bool) : (polyOf n c).degree < n := by
  rw [← mem_degreeLT]
  refine Submodule.sum_mem _ fun i hi => ?_
  split
  · exact mem_degreeLT.mpr ((degree_X_pow_le i).trans_lt (Nat.cast_lt.mpr (Finset.mem_range.mp hi)))
  · exact Submodule.zero_mem _

theorem fieldPoly_degree : fieldPoly.degree = (128 : Nat) := by
  unfold fieldPoly
  compute_degree!

theorem toPoly_injective {e f : Elem} (h : toPoly e = toPoly f) : e = f := by
  apply elem_ext_coeff
  intro i hi
  have hcoeff : (if FieldSpec.coeff e i then (1 : ZMod 2) else 0) = if FieldSpec.coeff f i then 1 else 0 := by
    rw [← toPoly_coeff e i hi, ← toPoly_coeff f i hi, h]
  revert hcoeff
  cases FieldSpec.coeff e i <;> cases FieldSpec.coeff f i <;> simp

theorem eq_zero_of_multiple {p q k : (ZMod 2)[X]} (h : q = p * k) (hlower : q.degree < p.degree) : q = 0 :=
  eq_zero_of_dvd_of_degree_lt (Dvd.intro k h.symm) hlower

/-- R70's uniqueness: the sum of two congruent elements is a multiple of the field polynomial of lower degree. -/
theorem eq_of_fieldEq {e f : Elem} (h : FieldEq (toPoly e) (toPoly f)) : e = f := by
  obtain ⟨k, hk⟩ := h
  have hmultiple : toPoly (gfAdd e f) = fieldPoly * k := by
    rw [toPoly_add, hk, add_right_comm, poly_add_self, zero_add]
  have hlower : (toPoly (gfAdd e f)).degree < fieldPoly.degree := by
    rw [fieldPoly_degree]
    exact polyOf_degree_lt 128 _
  have hzero : toPoly (gfAdd e f) = 0 := eq_zero_of_multiple hmultiple hlower
  rw [toPoly_add] at hzero
  exact toPoly_injective (CharTwo.add_eq_zero.mp hzero)

end Sys2Proof.FieldSpec

namespace Sys2Proof.Machine

open Sys2Proof.FieldSpec Polynomial

theorem rev4_testBit : ∀ m : BitVec 4, ∀ t < 4, (rev4 m).toNat.testBit t = m.getLsbD (3 - t) := by decide

/-- The entry that a nibble selects is the nibble's four coefficients times H (R66, R69). -/
theorem tableEntry_fieldEq (h : Elem) (m : BitVec 4) :
    FieldEq (toPoly (tableEntry (buildProductTable h) m)) (polyOf 4 (fun t => m.getLsbD (3 - t)) * toPoly h) := by
  rw [buildProductTable_entry, ← polyOf_congr 4 _ _ (rev4_testBit m)]
  exact gfTimes_fieldEq h _ (rev4 m).isLt

theorem mulStep_fieldEq (h z : Elem) (w : Word64) (j : Nat) :
    FieldEq (toPoly (mulStep (buildProductTable h) w z j))
      (X ^ 4 * toPoly z + polyOf 4 (fun t => w.getLsbD (4 * j + (3 - t))) * toPoly h) := by
  have hnibble : polyOf 4 (fun t => (w.extractLsb' (4 * j) 4).getLsbD (3 - t)) =
      polyOf 4 (fun t => w.getLsbD (4 * j + (3 - t))) :=
    polyOf_congr 4 _ _ fun t _ => by simp [show 3 - t < 4 by omega]
  rw [mulStep, toPoly_add, ← hnibble]
  exact (gfShift4_fieldEq z).add (tableEntry_fieldEq h _)

/-- The invariant of R69's inner loop: after n nibbles, the coefficients in the low 4n bits have been multiplied in. -/
theorem mulStep_foldl_fieldEq (h z : Elem) (w : Word64) (n : Nat) :
    FieldEq (toPoly ((List.range n).foldl (mulStep (buildProductTable h) w) z))
      (X ^ (4 * n) * toPoly z + polyOf (4 * n) (fun i => w.getLsbD (4 * n - 1 - i)) * toPoly h) := by
  induction n with
  | zero => simp [polyOf, FieldEq.refl]
  | succ n ih =>
    have hfirst : polyOf 4 (fun i => w.getLsbD (4 + 4 * n - 1 - i)) =
        polyOf 4 (fun t => w.getLsbD (4 * n + (3 - t))) :=
      polyOf_congr 4 _ _ fun i hi => by rw [show 4 + 4 * n - 1 - i = 4 * n + (3 - i) by omega]
    have hothers : polyOf (4 * n) (fun i => w.getLsbD (4 + 4 * n - 1 - (4 + i))) =
        polyOf (4 * n) (fun i => w.getLsbD (4 * n - 1 - i)) :=
      polyOf_congr _ _ _ fun i _ => by rw [show 4 + 4 * n - 1 - (4 + i) = 4 * n - 1 - i by omega]
    rw [List.range_succ, List.foldl_concat, show 4 * (n + 1) = 4 + 4 * n by ring, polyOf_split, hfirst, hothers]
    refine (mulStep_fieldEq h _ w n).trans ?_
    have hstep := (ih.mul_left (X ^ 4)).add
      (.refl (polyOf 4 (fun t => w.getLsbD (4 * n + (3 - t))) * toPoly h))
    convert hstep using 1
    ring

/-- One word of the multiply: z moves up 64 places, and the word's coefficients times H come in below (R69). -/
theorem mulWord_fieldEq (h z : Elem) (w : Word64) :
    FieldEq (toPoly (mulWord (buildProductTable h) w z))
      (X ^ 64 * toPoly z + polyOf 64 (fun i => w.getLsbD (63 - i)) * toPoly h) :=
  mulStep_foldl_fieldEq h z w 16

/-- R70: the high word's product moves up 64 places as the low word's comes in. -/
theorem mulH_fieldEq (y h : Elem) : FieldEq (toPoly (mulH y (buildProductTable h))) (toPoly y * toPoly h) := by
  have hhigh : FieldEq (toPoly (mulWord (buildProductTable h) y.high gfZero))
      (polyOf 64 (fun i => y.high.getLsbD (63 - i)) * toPoly h) := by
    simpa [toPoly_gfZero] using mulWord_fieldEq h gfZero y.high
  rw [toPoly_eq_words y, add_comm, add_mul, mul_assoc]
  exact (mulWord_fieldEq h _ y.low).trans ((hhigh.mul_left (X ^ 64)).add (.refl _))

end Sys2Proof.Machine

namespace Sys2Proof.Proofs

open Sys2Proof.Machine Sys2Proof.FieldSpec

/-- Settles O34: Horner's rule over the nibbles, and the degree bound for uniqueness. -/
theorem tableMultiplyIsTheFieldProduct : Obligations.TableMultiplyIsTheFieldProduct :=
  ⟨mulH_fieldEq, fun _ _ => eq_of_fieldEq⟩

end Sys2Proof.Proofs
end

section
/-! PROOF. Absorbing a byte string (40_gf128.md R71): the chunks of a string are its first 16 bytes and the chunks of
the rest, so the loop over the chunk numbers takes the string from its front. -/

namespace Sys2Proof.Machine

theorem dataChunk_of_short (c : List Byte) (hc : c.length ≤ 16) :
    dataChunk c 0 = Block.ofBytes (c ++ List.replicate (16 - c.length) 0) := by
  simp [dataChunk, List.take_of_length_le hc]

variable {c : List Byte} (rest : List Byte)

theorem dataChunk_append_zero (hc : c.length = 16) : dataChunk (c ++ rest) 0 = Block.ofBytes c := by
  simp [dataChunk, List.take_left' hc, hc]

theorem dataChunk_append_succ (hc : c.length = 16) (k : Nat) : dataChunk (c ++ rest) (k + 1) = dataChunk rest k := by
  have hdrop : (c ++ rest).drop (16 * (k + 1)) = rest.drop (16 * k) := by
    rw [Nat.mul_succ, Nat.add_comm, ← List.drop_drop, List.drop_left' hc]
  simp only [dataChunk, hdrop]

theorem absorbStep_append_succ (hc : c.length = 16) (t : Vector Elem 16) (acc : Elem) (k : Nat) :
    absorbStep t (c ++ rest) acc (k + 1) = absorbStep t rest acc k := by
  rw [absorbStep, absorbStep, dataChunk_append_succ rest hc]

/-- R71: a full chunk is XORed in and multiplied, and the loop goes on with the rest. -/
theorem gfAbsorb_append (hc : c.length = 16) (acc : Elem) (t : Vector Elem 16) :
    gfAbsorb acc (c ++ rest) t = gfAbsorb (mulH (gfAdd acc (elem (Block.ofBytes c))) t) rest t := by
  have hchunks : ((c ++ rest).length + 15) / 16 = (rest.length + 15) / 16 + 1 := by
    rw [List.length_append]
    omega
  have hfirst : absorbStep t (c ++ rest) acc 0 = mulH (gfAdd acc (elem (Block.ofBytes c))) t := by
    rw [absorbStep, dataChunk_append_zero rest hc]
  rw [gfAbsorb, hchunks, List.range_succ_eq_map, List.foldl_cons, List.foldl_map, hfirst]
  simp only [Nat.succ_eq_add_one, absorbStep_append_succ rest hc]
  rfl

theorem gfAbsorb_of_short (acc : Elem) (t : Vector Elem 16) (hpos : 0 < c.length) (hshort : c.length < 16) :
    gfAbsorb acc c t = mulH (gfAdd acc (elem (Block.ofBytes (c ++ List.replicate (16 - c.length) 0)))) t := by
  have hchunks : (c.length + 15) / 16 = 1 := by omega
  rw [gfAbsorb, hchunks, List.range_one, List.foldl_cons, List.foldl_nil, absorbStep, dataChunk_of_short c (by omega)]

end Sys2Proof.Machine

namespace Sys2Proof.Proofs

open Sys2Proof.Machine

/-- Settles O36: no chunk in the empty string, a full chunk before the rest, and one padded chunk. -/
theorem absorbTakesChunksAndPads : Obligations.AbsorbTakesChunksAndPads :=
  fun acc t => ⟨rfl, fun _ rest hc => gfAbsorb_append rest hc acc t, fun _ => gfAbsorb_of_short acc t⟩

end Sys2Proof.Proofs
end

section
/-! PROOF. The counter's increment (41_counter.md R78): a counter block is twelve bytes of nonce over a 32-bit counter,
and the increment keeps the first and adds 1 to the second. -/

namespace Sys2Proof.Machine

/-- Bytes 0..11 do not depend on the 32-bit counter that stands under them. -/
theorem Block.byte_replaceCounter (s : Block) (c : BitVec 32) (k : Nat) (hk : k < 12) :
    Block.byte (s.extractLsb' 32 96 ++ c) k = Block.byte s k := by
  apply BitVec.eq_of_getLsbD_eq
  intro j hj
  have habove : ¬ 8 * (15 - k) + j < 32 := by omega
  have hwithin : 8 * (15 - k) + j - 32 < 96 := by omega
  have hplace : 32 + (8 * (15 - k) + j - 32) = 8 * (15 - k) + j := by omega
  rw [Block.byte_getLsbD, Block.byte_getLsbD, BitVec.getLsbD_append, if_neg habove, BitVec.getLsbD_extractLsb', hplace,
    decide_eq_true hwithin, Bool.true_and]

theorem Block.take_toBytes_replaceCounter (s : Block) (c : BitVec 32) :
    (Block.toBytes (s.extractLsb' 32 96 ++ c)).take 12 = (Block.toBytes s).take 12 := by
  apply List.ext_getElem
  · simp
  · intro k hk _
    have hk12 : k < 12 := by simpa using hk
    rw [List.getElem_take, List.getElem_take, Block.toBytes_getElem, Block.toBytes_getElem,
      Block.byte_replaceCounter s c k hk12]

/-- The low 32 bits of a block are the big-endian number of its last four bytes. -/
theorem beNat_drop_counter (s : Block) : beNat ((Block.toBytes s).drop 12) = (s.extractLsb' 0 32).toNat := by
  rw [beNat_drop s 12 (by omega), BitVec.extractLsb'_toNat, Nat.shiftRight_zero]

theorem beNat_drop_replaceCounter (p : BitVec 96) (c : BitVec 32) :
    beNat ((Block.toBytes (p ++ c)).drop 12) = c.toNat := by
  rw [beNat_drop_counter, BitVec.extractLsb'_append_eq_right]

/-- The 32-bit addition wraps, so the number of the last four bytes grows by 1 mod 2^32 (R78). -/
theorem beNat_drop_inc32 (s : Block) :
    beNat ((Block.toBytes (inc32 s)).drop 12) = (beNat ((Block.toBytes s).drop 12) + 1) % 2 ^ 32 := by
  rw [inc32, beNat_drop_replaceCounter, BitVec.toNat_add, ← beNat_drop_counter]
  rfl

end Sys2Proof.Machine

namespace Sys2Proof.Proofs

open Sys2Proof.Machine

/-- Settles O45: the nonce over a new counter, and the 32-bit addition on the counter. -/
theorem incrementIsBigEndianMod32 : Obligations.IncrementIsBigEndianMod32 :=
  fun s => ⟨Block.take_toBytes_replaceCounter s _, beNat_drop_inc32 s⟩

end Sys2Proof.Proofs
end

section
/-! PROOF. The keystream combiner (42_keystream_xor.md R82, R83): both inputs are read before the destination is
written, so each byte stored is the XOR of two old bytes, whichever of the permitted aliasings holds. -/

namespace Sys2Proof.Machine

/-- The aliasing that R82 permits between two ranges of one length: the same range, disjoint ranges, or no bytes. -/
theorem inexactOverlap_eq_false_iff (s1 s2 n : Nat) :
    inexactOverlap s1 n s2 n = false ↔ s1 = s2 ∨ s1 + n ≤ s2 ∨ s2 + n ≤ s1 ∨ n = 0 := by
  simp only [inexactOverlap, anyOverlap, Bool.and_eq_false_iff, Bool.not_eq_false', decide_eq_true_eq,
    decide_eq_false_iff_not, and_true]
  omega

/-- Byte i of the string that XORM stores (R83). -/
theorem xorBytes_memRead_getElem (s : State) (a b n i : Nat)
    (h : i < (xorBytes (s.memRead a n) (s.memRead b n)).length) :
    (xorBytes (s.memRead a n) (s.memRead b n))[i] = s.readByte (a + i) ^^^ s.readByte (b + i) := by
  simp only [xorBytes, List.getElem_zipWith, memRead_getElem]

theorem length_xorBytes_memRead (s : State) (a b n : Nat) :
    (xorBytes (s.memRead a n) (s.memRead b n)).length = n := by
  rw [xorBytes_length, memRead_length, memRead_length, Nat.min_self]

end Sys2Proof.Machine

namespace Sys2Proof.Proofs

open Sys2Proof.Machine

/-- Settles O48: the checks pass, so XORM is one write of the XOR of two strings read from the old state. -/
theorem xormCombinesTheRanges : Obligations.XormCombinesTheRanges := by
  intro rd ra rb rn s d a b n hd ha hb hda hdb
  have hlength := length_xorBytes_memRead s a b n
  refine ⟨s.memWrite d (xorBytes (s.memRead a n) (s.memRead b n)), ?completes, fun i hi => ?inside, ?frame⟩
  case completes =>
    exact execXorm_of_checked rd ra rb rn hd ha hb ((inexactOverlap_eq_false_iff d a n).mpr hda)
      ((inexactOverlap_eq_false_iff d b n).mpr hdb)
  case inside =>
    rw [memWrite_readByte_inside s d i _ (hlength.symm ▸ hi), xorBytes_memRead_getElem]
  case frame => exact onlyBuf_memWrite d n _ hlength s

end Sys2Proof.Proofs
end

section
/-! PROOF. The overlap detector's predicates (43_overlap.md R85, R86): the comparison of bounds says that a byte is
shared, and what both predicates do follows from that reading of them. -/

namespace Sys2Proof.Machine

/-- R85: when the comparison holds, the later of the two starts lies in both ranges. -/
theorem anyOverlap_iff_shared_byte (s1 l1 s2 l2 : Nat) :
    anyOverlap s1 l1 s2 l2 = true ↔ ∃ x, (s1 ≤ x ∧ x < s1 + l1) ∧ s2 ≤ x ∧ x < s2 + l2 := by
  rw [anyOverlap, decide_eq_true_iff]
  constructor
  · rintro ⟨hl1, hl2, h12, h21⟩
    exact ⟨max s1 s2, ⟨le_max_left _ _, by omega⟩, le_max_right _ _, by omega⟩
  · rintro ⟨x, ⟨hs1, he1⟩, hs2, he2⟩
    omega

theorem anyOverlap_of_empty {s1 l1 s2 l2 : Nat} (h : l1 = 0 ∨ l2 = 0) : anyOverlap s1 l1 s2 l2 = false := by
  rw [← Bool.not_eq_true, anyOverlap_iff_shared_byte]
  rintro ⟨x, ⟨hs1, he1⟩, hs2, he2⟩
  omega

theorem anyOverlap_comm (s1 l1 s2 l2 : Nat) : anyOverlap s1 l1 s2 l2 = anyOverlap s2 l2 s1 l1 := by
  rw [Bool.eq_iff_iff, anyOverlap_iff_shared_byte, anyOverlap_iff_shared_byte]
  exact exists_congr fun _ => and_comm

/-- Nonempty ranges of one start share the byte at that start. -/
theorem anyOverlap_same_start (s : Nat) {l1 l2 : Nat} (h1 : 0 < l1) (h2 : 0 < l2) : anyOverlap s l1 s l2 = true :=
  (anyOverlap_iff_shared_byte s l1 s l2).mpr
    ⟨s, ⟨le_rfl, Nat.lt_add_of_pos_right h1⟩, le_rfl, Nat.lt_add_of_pos_right h2⟩

theorem inexactOverlap_iff (s1 l1 s2 l2 : Nat) :
    inexactOverlap s1 l1 s2 l2 = true ↔ anyOverlap s1 l1 s2 l2 = true ∧ ¬(s1 = s2 ∧ l1 = l2) := by
  rw [inexactOverlap, Bool.and_eq_true, Bool.not_eq_true', decide_eq_false_iff_not]

theorem inexactOverlap_comm (s1 l1 s2 l2 : Nat) : inexactOverlap s1 l1 s2 l2 = inexactOverlap s2 l2 s1 l1 := by
  rw [Bool.eq_iff_iff, inexactOverlap_iff, inexactOverlap_iff, anyOverlap_comm, eq_comm (a := s1), eq_comm (a := l1)]

end Sys2Proof.Machine

namespace Sys2Proof.Proofs

open Sys2Proof.Machine

/-- Settles O50: symmetry and the empty ranges follow from the shared byte. -/
theorem anyOverlapMeansASharedByte : Obligations.AnyOverlapMeansASharedByte :=
  ⟨anyOverlap_iff_shared_byte, fun _ _ _ _ => anyOverlap_of_empty, anyOverlap_comm⟩

/-- Settles O51: the shared byte of R85, and of one start and two lengths the byte at that start. -/
theorem inexactOverlapMeansNotIdentical : Obligations.InexactOverlapMeansNotIdentical := by
  refine ⟨fun s1 l1 s2 l2 => ?sharedNotSame, inexactOverlap_comm, fun s l1 l2 h1 h2 hne => ?sameStart⟩
  case sharedNotSame => rw [inexactOverlap_iff, anyOverlap_iff_shared_byte]
  case sameStart =>
    exact (inexactOverlap_iff s l1 s l2).mpr ⟨anyOverlap_same_start s h1 h2, fun hsame => hne hsame.2⟩

end Sys2Proof.Proofs
end

section
/-! PROOF. The bit reversal and NOP (44_utility.md R89, R93): rev4 bit by bit, and what the issue of a word with OP = 0
does, by FAULT and by whether the word decodes. -/

namespace Sys2Proof.Machine

theorem rev4_getLsbD (i : BitVec 4) (k : Nat) (hk : k < 4) : (rev4 i).getLsbD k = i.getLsbD (3 - k) := by
  rw [← BitVec.testBit_toNat, rev4_testBit i k hk]

theorem exec_nop (s : State) : exec .nop s = .next s := rfl

/-- R96: a failed block discards whatever is issued. -/
theorem runCommand_of_fault (w : Word32) {s : State} (hfault : s.fault = true) : runCommand w s = .next s := by
  rw [runCommand, if_pos hfault]

theorem runCommand_of_ok {w : Word32} {i : Instr} {s : State} (hfault : s.fault = false) (h : decode w = .ok i) :
    runCommand w s = exec i s := by
  simp only [runCommand, hfault, h, Bool.false_eq_true, if_false]

/-- The zero word is discarded, or it is NOP's own. -/
theorem runCommand_zero (s : State) : runCommand 0 s = .next s := by
  cases hfault : s.fault with
  | true => exact runCommand_of_fault 0 hfault
  | false =>
    have hnop : decode 0 = .ok .nop := Proofs.zeroWordIsTheOnlyNop.1
    rw [runCommand_of_ok hfault hnop, exec_nop]

/-- R57: of the words with OP = 0 only zero decodes, and it has no bit in 25:0. -/
theorem decode_not_ok_of_opcode_zero {w : Word32} (hop : w.extractLsb' 26 6 = 0) (hlow : w.extractLsb' 0 26 ≠ 0)
    (i : Instr) : decode w ≠ .ok i := by
  intro hok
  obtain rfl : w = 0 := decode_ok_of_opcode_zero (congrArg BitVec.toNat hop) hok
  exact hlow rfl

end Sys2Proof.Machine

namespace Sys2Proof.Proofs

open Sys2Proof.Machine

/-- Settles O53: bit k of the reversal for each k, and the involution. -/
theorem rev4ReversesTheBits : Obligations.Rev4ReversesTheBits :=
  fun i => ⟨rev4_getLsbD i, rev4_rev4 i⟩

/-- Settles O58: NOP and its word in every state, and the other words of OP = 0, which do not decode. -/
theorem nopChangesNothing : Obligations.NopChangesNothing :=
  ⟨fun s => ⟨exec_nop s, runCommand_zero s⟩,
    fun _ _ hfault hop hlow => runCommand_of_not_ok hfault (decode_not_ok_of_opcode_zero hop hlow)⟩

end Sys2Proof.Proofs
end

section
/-! PROOF. The word of a decoded command (30_encoding.md R47-R49, R53): a legal word is put together again from the
fields that its format uses, so the word that a fault records in FCMD is the word issued (60_exceptions.md R95). -/

namespace Sys2Proof

/-- The word with the opcode of w, the fields of w that a format uses, and every other bit 0 (R48). -/
def Format.reassemble (w : Word32) : Format → Word32
  | .n => assembleFields (fieldOP w) 0 0 0 0 0
  | .r1 => assembleFields (fieldOP w) (fieldF1 w) 0 0 0 0
  | .r2 => assembleFields (fieldOP w) (fieldF1 w) (fieldF2 w) 0 0 0
  | .r3 => assembleFields (fieldOP w) (fieldF1 w) (fieldF2 w) (fieldF3 w) 0 0
  | .r4 => assembleFields (fieldOP w) (fieldF1 w) (fieldF2 w) (fieldF3 w) (fieldF4 w) 0
  | .r5 => assembleFields (fieldOP w) (fieldF1 w) (fieldF2 w) (fieldF3 w) (fieldF4 w) (fieldF5 w)
  | .t => assembleT (fieldOP w) (fieldF1 w) (fieldIDX w).toNat

theorem encode_of_commandOf {w : Word32} {fmt : Format} {i : Instr} (h : commandOf (fieldOP w) w = some (fmt, i)) :
    encode i = fmt.reassemble w := by
  unfold commandOf at h
  split at h <;> cases h <;> simp only [encode, Format.reassemble, *]

/-- A word whose reserved bits are 0 has no bit outside the fields of its format. -/
theorem reassemble_eq_self {w : Word32} (fmt : Format) (h : w.toNat % 2 ^ fmt.reservedBits = 0) :
    fmt.reassemble w = w := by
  have hbound := w.isLt
  apply BitVec.eq_of_toNat_eq
  cases fmt <;>
    simp only [Format.reassemble, Format.reservedBits, assembleFields, assembleT, BitVec.toNat_ofNat, fieldOP_eq,
      fieldF1_val, fieldF2_val, fieldF3_val, fieldF4_val, fieldF5_val, fieldIDX_toNat] at h ⊢ <;>
    omega

/-- No bit of a legal word is ignored (R53, R55). -/
theorem encode_of_decode {w : Word32} {i : Instr} (h : decode w = .ok i) : encode i = w := by
  obtain ⟨fmt, hcmd, hlow⟩ := (decode_ok_iff w i).mp h
  exact (encode_of_commandOf hcmd).trans (reassemble_eq_self fmt hlow)

end Sys2Proof
end

section
/-! PROOF. The order of a command's checks (60_exceptions.md R95, R97): a command that answers a next state has raised
the fault of its first failing check, or has passed every check and left STATUS and FCMD alone. -/

namespace Sys2Proof.Machine

open Sys2Proof.Safety

variable {s t : State} {i : Instr}

/-! ## The first failing check -/

theorem firstFailure_eq_none (h : ∀ p ∈ checks s i, p.1 = false) : firstFailure s i = none := by
  simpa [firstFailure] using h

/-- Among the first n checks one fails, and all that fail raise the same fault: it is the fault reported, whatever the
later checks say. -/
theorem firstFailure_eq_some (n : Nat) {c : BitVec 8} (hfail : ∃ p ∈ (checks s i).take n, p.1 = true)
    (hcode : ∀ p ∈ (checks s i).take n, p.1 = true → p.2 = c) : firstFailure s i = some c := by
  have hfind : (((checks s i).take n).find? fun p => p.1).isSome = true := List.find?_isSome.mpr hfail
  obtain ⟨p, hp⟩ := Option.isSome_iff_exists.mp hfind
  have hp1 : p.1 = true := List.find?_some (p := fun p : Bool × BitVec 8 => p.1) hp
  have hpc : p.2 = c := hcode p (List.mem_of_find?_eq_some hp) hp1
  rw [firstFailure, ← List.take_append_drop n (checks s i), List.find?_append, hp]
  exact congrArg some hpc

/-! ## The checks in the machine's terms -/

theorem decide_outside (s : State) (a n : Nat) : decide (s.bufSize < a + n) = !s.admitted a n := by
  simp [State.admitted, ← decide_not]

theorem decide_inexact (d a n : Nat) :
    decide (0 < n ∧ d < a + n ∧ a < d + n ∧ d ≠ a) = inexactOverlap d n a n := by
  rw [Bool.eq_iff_iff, decide_eq_true_iff, ← Bool.not_eq_false, inexactOverlap_eq_false_iff]
  omega

theorem decide_past_end (a l : Nat) : decide (2 ^ 64 < a + l) = !rangeValid a l := by
  simp [rangeValid, ← decide_not]

theorem decide_nonce (s : State) (rn : SReg) : decide (s.readR rn ≠ 12) = decide (s.number rn ≠ 12) :=
  decide_eq_decide.mpr (not_congr BitVec.toNat_inj.symm)

/-! ## What a command does about its checks -/

/-- A command that answers t has reported its first failing check, or none fails and no fault is raised. -/
def FollowsChecks (s : State) (i : Instr) (t : State) : Prop :=
  (∃ c, firstFailure s i = some c ∧ t = faulted c (encode i) s) ∨ (firstFailure s i = none ∧ SameStatus s t)

theorem FollowsChecks.of_raise (n : Nat) {c : FaultCode} (ht : t = raiseFault c (encode i) s)
    (hfail : ∃ p ∈ (checks s i).take n, p.1 = true)
    (hcode : ∀ p ∈ (checks s i).take n, p.1 = true → p.2 = c.number) : FollowsChecks s i t :=
  .inl ⟨c.number, firstFailure_eq_some n hfail hcode, ht⟩

theorem FollowsChecks.of_pass (hpass : ∀ p ∈ checks s i, p.1 = false) (hstatus : SameStatus s t) :
    FollowsChecks s i t :=
  .inr ⟨firstFailure_eq_none hpass, hstatus⟩

theorem sameStatus_writeV (s : State) (d : VReg) (b : Block) : SameStatus s (s.writeV d b) := ⟨rfl, rfl, rfl, rfl⟩
theorem sameStatus_writeR (s : State) (d : SReg) (x : Word64) : SameStatus s (s.writeR d x) := ⟨rfl, rfl, rfl, rfl⟩
theorem sameStatus_memWrite (s : State) (a : Nat) (bs : List Byte) : SameStatus s (s.memWrite a bs) :=
  ⟨rfl, rfl, rfl, rfl⟩
theorem sameStatus_installTable (s : State) (tab : Vector Elem 16) : SameStatus s (s.installTable tab) :=
  ⟨rfl, rfl, rfl, rfl⟩

theorem execGfmulh_follows_checks {vd va : VReg} (h : execGfmulh vd va s = .next t) :
    FollowsChecks s (.gfmulh vd va) t := by
  rcases execGfmulh_cases h with ⟨htv, ht⟩ | ⟨htv, rfl⟩
  · exact .of_raise 1 ht (by simp [checks, htv]) (by simp [checks, FaultCode.number])
  · exact .of_pass (by simp [checks, htv]) (sameStatus_writeV s vd _)

theorem execBuildtab_follows_checks {va : VReg} (h : execBuildtab va s = .next t) :
    FollowsChecks s (.buildtab va) t := by
  rcases execBuildtab_cases h with ⟨htv, ht⟩ | ⟨htv, rfl⟩
  · exact .of_raise 1 ht (by simp [checks, htv]) (by simp [checks, FaultCode.number])
  · exact .of_pass (by simp [checks, htv]) (sameStatus_installTable s _)

/-- E_NOTAB comes before E_BOUNDS. -/
theorem execAbsorb_follows_checks {vd : VReg} {rs rn : SReg} (h : execAbsorb vd rs rn s = .next t) :
    FollowsChecks s (.absorb vd rs rn) t := by
  have hchecks : checks s (.absorb vd rs rn) = [(!s.tv, 2), (!s.admitted (s.number rs) (s.number rn), 6)] := by
    simp only [checks, ← decide_outside, State.number]
  rcases execAbsorb_cases h with ⟨htv, ht⟩ | ⟨htv, hout, ht⟩ | ⟨htv, hin, rfl⟩
  · exact .of_raise 1 ht (by simp [hchecks, htv]) (by simp [hchecks, FaultCode.number])
  · exact .of_raise 2 ht (by simp [hchecks, hout]) (by simp [hchecks, htv, FaultCode.number])
  · exact .of_pass (by simp [hchecks, htv, hin]) (sameStatus_writeV s vd _)

theorem execCtrinit_follows_checks {vd va : VReg} {rn : SReg} (h : execCtrinit vd va rn s = .next t) :
    FollowsChecks s (.ctrinit vd va rn) t := by
  have hchecks : checks s (.ctrinit vd va rn) = [(decide (s.number rn ≠ 12), 4)] := by
    simp only [checks, decide_nonce]
  rcases execCtrinit_cases h with ⟨hlen, rfl⟩ | ⟨hlen, ht⟩
  · exact .of_pass (by simp [hchecks, hlen]) (sameStatus_writeV s vd _)
  · exact .of_raise 1 ht (by simp [hchecks, hlen]) (by simp [hchecks, FaultCode.number])

/-- The three bounds checks come before the two aliasing checks. -/
theorem execXorm_follows_checks {rd ra rb rn : SReg} (h : execXorm rd ra rb rn s = .next t) :
    FollowsChecks s (.xorm rd ra rb rn) t := by
  have hchecks : checks s (.xorm rd ra rb rn) =
      [(!s.admitted (s.number rd) (s.number rn), 6), (!s.admitted (s.number ra) (s.number rn), 6),
       (!s.admitted (s.number rb) (s.number rn), 6),
       (inexactOverlap (s.number rd) (s.number rn) (s.number ra) (s.number rn), 7),
       (inexactOverlap (s.number rd) (s.number rn) (s.number rb) (s.number rn), 7)] := by
    simp only [checks, ← decide_outside, ← decide_inexact, State.number]
  rcases execXorm_cases h with ⟨hout, ht⟩ | ⟨hin, halias, ht⟩ | ⟨hin, halias, rfl⟩
  · simp only [Bool.and_eq_false_iff, or_assoc] at hout
    exact .of_raise 3 ht (by simpa [hchecks] using hout) (by simp [hchecks, FaultCode.number])
  · simp only [Bool.and_eq_true] at hin
    obtain ⟨⟨hd, ha⟩, hb⟩ := hin
    exact .of_raise 5 ht (by simpa [hchecks, hd, ha, hb] using halias)
      (by simp [hchecks, hd, ha, hb, FaultCode.number])
  · simp only [Bool.and_eq_true] at hin
    simp only [Bool.or_eq_false_iff] at halias
    exact .of_pass (by simp [hchecks, hin, halias]) (sameStatus_memWrite s _ _)

theorem execOvlp_follows_checks {rd ra rla rb rlb : SReg} (h : execOvlp rd ra rla rb rlb s = .next t) :
    FollowsChecks s (.ovlp rd ra rla rb rlb) t := by
  have hchecks : checks s (.ovlp rd ra rla rb rlb) =
      [(!rangeValid (s.number ra) (s.number rla), 5), (!rangeValid (s.number rb) (s.number rlb), 5)] := by
    simp only [checks, ← decide_past_end, State.number]
  rcases execOvlp_cases h with ⟨hfirst, hsecond, rfl⟩ | ⟨hpast, ht⟩
  · exact .of_pass (by simp [hchecks, hfirst, hsecond]) (sameStatus_writeR s rd _)
  · exact .of_raise 2 ht (by simpa [hchecks] using hpast) (by simp [hchecks, FaultCode.number])

theorem execLdv_follows_checks {vd : VReg} {rs : SReg} (h : execLdv vd rs s = .next t) :
    FollowsChecks s (.ldv vd rs) t := by
  have hchecks : checks s (.ldv vd rs) = [(!s.admitted (s.number rs) 16, 6)] := by
    simp only [checks, ← decide_outside, State.number]
  rcases execLdv_cases h with ⟨hin, rfl⟩ | ⟨hout, ht⟩
  · exact .of_pass (by simp [hchecks, hin]) (sameStatus_writeV s vd _)
  · exact .of_raise 1 ht (by simp [hchecks, hout]) (by simp [hchecks, FaultCode.number])

theorem execStv_follows_checks {va : VReg} {rs : SReg} (h : execStv va rs s = .next t) :
    FollowsChecks s (.stv va rs) t := by
  have hchecks : checks s (.stv va rs) = [(!s.admitted (s.number rs) 16, 6)] := by
    simp only [checks, ← decide_outside, State.number]
  rcases execStv_cases h with ⟨hin, rfl⟩ | ⟨hout, ht⟩
  · exact .of_pass (by simp [hchecks, hin]) (sameStatus_memWrite s _ _)
  · exact .of_raise 1 ht (by simp [hchecks, hout]) (by simp [hchecks, FaultCode.number])

theorem execRev4_follows_checks {rd rs : SReg} (h : execRev4 rd rs s = .next t) :
    FollowsChecks s (.rev4 rd rs) t := by
  have hchecks : checks s (.rev4 rd rs) = [(decide (15 < s.number rs), 5)] := rfl
  rcases execRev4_cases h with ⟨hbig, ht⟩ | ⟨hsmall, rfl⟩
  · exact .of_raise 1 ht (by simp [hchecks, hbig]) (by simp [hchecks, FaultCode.number])
  · exact .of_pass (by simp [hchecks, hsmall]) (sameStatus_writeR s rd _)

/-- The table of checks is what the commands do (R97), the five that have none first. -/
theorem exec_follows_checks (h : exec i s = .next t) : FollowsChecks s i t := by
  cases i with
  | nop =>
    cases h
    exact .of_pass (by simp [checks]) ⟨rfl, rfl, rfl, rfl⟩
  | gfadd | gfdbl | rdtab | inc32 =>
    cases h
    exact .of_pass (by simp [checks]) (sameStatus_writeV s _ _)
  | gfmulh vd va => exact execGfmulh_follows_checks h
  | buildtab va => exact execBuildtab_follows_checks h
  | absorb vd rs rn => exact execAbsorb_follows_checks h
  | ctrinit vd va rn => exact execCtrinit_follows_checks h
  | xorm rd ra rb rn => exact execXorm_follows_checks h
  | ovlp rd ra rla rb rlb => exact execOvlp_follows_checks h
  | ldv vd rs => exact execLdv_follows_checks h
  | stv va rs => exact execStv_follows_checks h
  | rev4 rd rs => exact execRev4_follows_checks h

/-! ## Every command completes -/

/-- The answer is a next state: the machine neither stops nor refuses. -/
def GoesOn (o : Host.Outcome State Fault Refusal) : Prop := ∃ t, o = .next t

theorem goesOn_next (t : State) : GoesOn (.next t) := ⟨t, rfl⟩

theorem goesOn_raise (c : FaultCode) (i : Instr) (s : State) : GoesOn (raise c i s) := ⟨_, rfl⟩

theorem goesOn_ite {p : Prop} [Decidable p] {o o' : Host.Outcome State Fault Refusal} (h : GoesOn o)
    (h' : GoesOn o') : GoesOn (if p then o else o') := by
  split
  · exact h
  · exact h'

/-- No command stops the machine or is refused: a fault of the spec is a next state (R95). -/
theorem goesOn_exec (i : Instr) (s : State) : GoesOn (exec i s) := by
  cases i with
  | nop | gfadd | gfdbl | rdtab | inc32 => exact goesOn_next _
  | gfmulh | buildtab | rev4 => exact goesOn_ite (goesOn_raise _ _ s) (goesOn_next _)
  | ctrinit | ovlp | ldv | stv => exact goesOn_ite (goesOn_next _) (goesOn_raise _ _ s)
  | absorb =>
    exact goesOn_ite (goesOn_raise _ _ s) (goesOn_ite (goesOn_next _) (goesOn_raise _ _ s))
  | xorm =>
    exact goesOn_ite (goesOn_raise _ _ s) (goesOn_ite (goesOn_raise _ _ s) (goesOn_ite (goesOn_raise _ _ s)
      (goesOn_ite (goesOn_raise _ _ s) (goesOn_ite (goesOn_raise _ _ s) (goesOn_next _)))))

/-! ## The issue of a word that decodes -/

variable {w : Word32}

/-- A decoded command reports its first failing check with the word issued in FCMD, or completes. -/
theorem runCommand_follows_checks (hfault : s.fault = false) (hd : decode w = .ok i) (h : runCommand w s = .next t) :
    (∃ c, firstFailure s i = some c ∧ t = faulted c w s) ∨ (firstFailure s i = none ∧ SameStatus s t) := by
  have hfollows : FollowsChecks s i t := exec_follows_checks ((runCommand_of_ok hfault hd).symm.trans h)
  rwa [FollowsChecks, encode_of_decode hd] at hfollows

theorem goesOn_runCommand_of_ok (hfault : s.fault = false) (hd : decode w = .ok i) : GoesOn (runCommand w s) := by
  rw [runCommand_of_ok hfault hd]
  exact goesOn_exec i s

theorem runCommand_of_firstFailure {c : BitVec 8} (hfault : s.fault = false) (hd : decode w = .ok i)
    (hc : firstFailure s i = some c) : runCommand w s = .next (faulted c w s) := by
  obtain ⟨t, ht⟩ := goesOn_runCommand_of_ok hfault hd
  rcases runCommand_follows_checks hfault hd ht with ⟨c', hc', rfl⟩ | ⟨hnone, _⟩
  · cases hc.symm.trans hc'
    exact ht
  · simp [hc] at hnone

theorem runCommand_of_checks_pass (hfault : s.fault = false) (hd : decode w = .ok i)
    (hnone : firstFailure s i = none) : ∃ t, runCommand w s = .next t ∧ SameStatus s t := by
  obtain ⟨t, ht⟩ := goesOn_runCommand_of_ok hfault hd
  rcases runCommand_follows_checks hfault hd ht with ⟨c, hc, _⟩ | ⟨_, hstatus⟩
  · simp [hnone] at hc
  · exact ⟨t, ht, hstatus⟩

theorem runCommand_of_error {e : DecodeError} (hfault : s.fault = false) (hd : decode w = .error e) :
    runCommand w s = .next (faulted 1 w s) :=
  runCommand_of_not_ok hfault fun i hok => by simp [hd] at hok

/-- What a word that ends in a fault has done: it does not decode, or its command has a failing check. -/
theorem runCommand_fault_cases (hfault : s.fault = false) (h : runCommand w s = .next t) (ht : t.fault = true) :
    ∃ c, t = faulted c w s ∧
      ((c = 1 ∧ ∃ e, decode w = .error e) ∨ ∃ i, decode w = .ok i ∧ firstFailure s i = some c) := by
  cases hd : decode w with
  | error e =>
    have heq : faulted 1 w s = t := by simpa [runCommand_of_error hfault hd] using h
    exact ⟨1, heq.symm, .inl ⟨rfl, e, rfl⟩⟩
  | ok i =>
    rcases runCommand_follows_checks hfault hd h with ⟨c, hc, hfaulted⟩ | ⟨_, hkeep, _⟩
    · exact ⟨c, hfaulted, .inr ⟨i, rfl, hc⟩⟩
    · simp [hkeep, hfault] at ht

end Sys2Proof.Machine

namespace Sys2Proof.Proofs

open Sys2Proof.Machine

/-- Settles O8: the discard, the word that does not decode, and a decoded command by `exec_follows_checks`. -/
theorem checksReportTheFirstFailure : Obligations.ChecksReportTheFirstFailure :=
  fun w _ => ⟨runCommand_of_fault w, fun hfault => ⟨fun _ hd => runCommand_of_error hfault hd,
    fun _ hd => ⟨fun _ hc => runCommand_of_firstFailure hfault hd hc, runCommand_of_checks_pass hfault hd⟩⟩⟩

/-- Settles O9: a command that passes its checks leaves FAULT clear, so only the fault entry is left. -/
theorem faultsArePrecise : Obligations.FaultsArePrecise :=
  fun _ _ _ hfault h ht => runCommand_fault_cases hfault h ht

end Sys2Proof.Proofs
end

section
/-! PROOF. The failed block (60_exceptions.md R96): an issued word is discarded, only reset touches FAULT, CODE and
FCMD, and the host's register and BUF transactions do not look at FAULT. -/

namespace Sys2Proof.Machine

variable {s t u : State}

theorem whenIdle_of_idle {o : Host.Outcome State Fault Refusal} (h : s.busy = false) : whenIdle s o = o := by
  simp [whenIdle, h]

theorem whenInBuf_of_lt {a : Nat} {o : Host.Outcome State Fault Refusal} (h : a < s.bufSize) :
    whenInBuf s a o = o := if_pos h

/-- The discarded command has only set BUSY and cleared it again. -/
theorem issue_of_fault (w : Word32) (hfault : s.fault = true) : issue w s = .next s.finishCommand := by
  rw [issue, runCommand_of_fault w (s := s.startCommand) hfault]
  rfl

theorem finishCommand_of_idle (h : s.busy = false) : s.finishCommand = s := by
  rw [State.finishCommand, ← h]

theorem hostStep_issue_of_fault (w : Word32) (hfault : s.fault = true) (hbusy : s.busy = false) :
    hostStep (.issue w) s = .next s := by
  rw [hostStep, whenIdle_of_idle hbusy, issue_of_fault w hfault, finishCommand_of_idle hbusy]

/-- Only a command or reset writes FAULT, CODE and FCMD, and a failed block discards the command. -/
theorem hostStep_keeps_fault {x : HostTxn} (hfault : s.fault = true) (hx : x ≠ .reset) (h : hostStep x s = .next t) :
    t.fault = true ∧ t.code = s.code ∧ t.fcmd = s.fcmd := by
  rcases hostStep_cases h with ⟨hbusy, hwrite⟩ | ⟨hreset, _⟩ | ⟨y, _, _, rfl⟩
  · rcases hwrite with ⟨i, v, _, rfl⟩ | ⟨i, b, _, rfl⟩ | ⟨a, b, _, _, rfl⟩ | ⟨w, rfl, _⟩
    · exact ⟨hfault, writeR_code s i v, writeR_fcmd s i v⟩
    · exact ⟨hfault, writeV_code s i _, writeV_fcmd s i _⟩
    · exact ⟨hfault, writeByte_code s a b, writeByte_fcmd s a b⟩
    · rw [hostStep_issue_of_fault w hfault hbusy] at h
      cases h
      exact ⟨hfault, rfl, rfl⟩
  · exact absurd hreset hx
  · exact ⟨hfault, observe_code s y, observe_fcmd s y⟩

/-- The register, BUF and FCMD transactions do in the failed block what they do without the fault. -/
theorem hostStep_with_fault {x : HostTxn} (hissue : ∀ w, x ≠ .issue w) (hreset : x ≠ .reset)
    (hstatus : x ≠ .rdStatus) (h : hostStep x s = .next u) :
    hostStep x { s with fault := true } = .next { u with fault := true } := by
  cases x with
  | wrR | rdR | wrV | rdV | rdFcmd =>
    obtain ⟨hbusy, h⟩ := whenIdle_cases h
    cases h
    exact whenIdle_of_idle hbusy
  | wrBuf | rdBuf =>
    obtain ⟨hbusy, h⟩ := whenIdle_cases h
    obtain ⟨hlt, h⟩ := whenInBuf_cases h
    cases h
    exact (whenIdle_of_idle hbusy).trans (whenInBuf_of_lt hlt)
  | rdStatus => exact absurd rfl hstatus
  | issue w => exact absurd rfl (hissue w)
  | reset => exact absurd rfl hreset

end Sys2Proof.Machine

namespace Sys2Proof.Proofs

open Sys2Proof.Machine

/-- Settles O11: the discard, the frame of every transaction but reset, and the transactions that ignore FAULT. -/
theorem faultIsStickyUntilReset : Obligations.FaultIsStickyUntilReset :=
  ⟨fun w _ hfault hbusy => hostStep_issue_of_fault w hfault hbusy,
    fun _ _ _ hfault hx h => hostStep_keeps_fault hfault hx h,
    fun _ s _ hissue hreset hstatus h =>
      hostStep_with_fault (s := { s with fault := false }) hissue hreset hstatus h⟩

end Sys2Proof.Proofs
end

section
/-! PROOF. The decoder and the encoder (30_encoding.md R47-R53): an assembled word decodes to the command its fields
stand for, and a row of the opcode table selects the words with the row's OP and no reserved bit of its format. -/

namespace Sys2Proof

/-! ## From a command to its word and back -/

/-- A word put together from an assigned OP and from fields that leave the format's reserved bits 0 decodes to the
command that `commandOf` makes of those fields. -/
theorem decode_assembleFields {op : Nat} {f1 f2 f3 f4 f5 : Fin 8} {fmt : Format} {i : Instr} (hop : op < 64)
    (hcmd : ∀ w, fieldF1 w = f1 → fieldF2 w = f2 → fieldF3 w = f3 → fieldF4 w = f4 → fieldF5 w = f5 →
      commandOf op w = some (fmt, i))
    (hlow : (op * 2 ^ 26 + f1 * 2 ^ 23 + f2 * 2 ^ 20 + f3 * 2 ^ 17 + f4 * 2 ^ 14 + f5 * 2 ^ 11) %
      2 ^ fmt.reservedBits = 0) : decode (assembleFields op f1 f2 f3 f4 f5) = .ok i := by
  obtain ⟨h0, h1, h2, h3, h4, h5⟩ :=
    assembleFields_fields op f1 f2 f3 f4 f5 hop f1.isLt f2.isLt f3.isLt f4.isLt f5.isLt
  refine (decode_ok_iff _ i).mpr ⟨fmt, ?_, ?_⟩
  · rw [h0]
    exact hcmd _ h1 h2 h3 h4 h5
  · rwa [assembleFields_toNat op f1 f2 f3 f4 f5 hop f1.isLt f2.isLt f3.isLt f4.isLt f5.isLt]

theorem decode_encode_rdtab (vd : VReg) (idx : TabIndex) : decode (encode (.rdtab vd idx)) = .ok (.rdtab vd idx) := by
  obtain ⟨h0, h1, hidx⟩ := assembleT_fields 5 vd idx.toNat (by omega) vd.isLt idx.isLt
  refine (decode_ok_iff _ _).mpr ⟨.t, ?_, ?_⟩
  · rw [encode, h0]
    exact congrArg₂ (fun d k => some (Format.t, Instr.rdtab d k)) h1 (BitVec.eq_of_toNat_eq hidx)
  · rw [encode, assembleT_toNat 5 vd idx.toNat (by omega) vd.isLt idx.isLt, Format.reservedBits]
    omega

/-- The round trip (R47-R51), format by format. -/
theorem decode_encode (i : Instr) : decode (encode i) = .ok i := by
  cases i with
  | nop => rfl
  | rdtab vd idx => exact decode_encode_rdtab vd idx
  | buildtab =>
    refine decode_assembleFields (f2 := 0) (f3 := 0) (f4 := 0) (f5 := 0) (fmt := .r1) (by omega) ?_ ?_
    · rintro w rfl - - - -
      rfl
    · simp only [Format.reservedBits, Fin.val_zero]
      omega
  | gfdbl | gfmulh | inc32 | ldv | stv | rev4 =>
    refine decode_assembleFields (f3 := 0) (f4 := 0) (f5 := 0) (fmt := .r2) (by omega) ?_ ?_
    · rintro w rfl rfl - - -
      rfl
    · simp only [Format.reservedBits, Fin.val_zero]
      omega
  | gfadd | absorb | ctrinit =>
    refine decode_assembleFields (f4 := 0) (f5 := 0) (fmt := .r3) (by omega) ?_ ?_
    · rintro w rfl rfl rfl - -
      rfl
    · simp only [Format.reservedBits, Fin.val_zero]
      omega
  | xorm =>
    refine decode_assembleFields (f5 := 0) (fmt := .r4) (by omega) ?_ ?_
    · rintro w rfl rfl rfl rfl -
      rfl
    · simp only [Format.reservedBits, Fin.val_zero]
      omega
  | ovlp =>
    refine decode_assembleFields (fmt := .r5) (by omega) ?_ ?_
    · rintro w rfl rfl rfl rfl rfl
      rfl
    · simp only [Format.reservedBits]
      omega

/-! ## The rows of the opcode table -/

/-- The bits of OP (R47). -/
def opMask : Word32 := 0xFC000000

/-- The row of an opcode and its format: OP and the reserved bits are looked at, and must be OP and 0 (R48). -/
def Format.row (mnemonic : String) (op : Nat) (fmt : Format) : OpcodeRow :=
  ⟨mnemonic, BitVec.ofNat 32 (op * 2 ^ 26), opMask ||| fmt.reservedMask⟩

/-- The assigned opcodes with their mnemonics and formats (R49, R52). -/
def assignedOpcodes : List (String × Nat × Format) :=
  [("NOP", 0x00, .n), ("GFADD", 0x01, .r3), ("GFDBL", 0x02, .r2), ("GFMULH", 0x03, .r2), ("BUILDTAB", 0x04, .r1),
   ("RDTAB", 0x05, .t), ("ABSORB", 0x06, .r3), ("CTRINIT", 0x08, .r3), ("INC32", 0x09, .r2), ("XORM", 0x0C, .r4),
   ("OVLP", 0x10, .r5), ("LDV", 0x14, .r2), ("STV", 0x15, .r2), ("REV4", 0x18, .r2)]

theorem opcodeTable_eq_map : opcodeTable = assignedOpcodes.map fun a => Format.row a.1 a.2.1 a.2.2 := by decide

theorem and_opMask (w : Word32) : w &&& opMask = BitVec.ofNat 32 (fieldOP w * 2 ^ 26) := by
  have hshift : w &&& opMask = (w >>> 26) <<< 26 := by
    have hmask : opMask = BitVec.allOnes 32 <<< 26 := by decide
    apply BitVec.eq_of_getLsbD_eq
    intro j hj
    rw [hmask, BitVec.getLsbD_and, BitVec.getLsbD_shiftLeft, BitVec.getLsbD_shiftLeft, BitVec.getLsbD_ushiftRight,
      BitVec.getLsbD_allOnes]
    by_cases h26 : j < 26
    · simp [h26]
    · simp [hj, h26, show j - 26 < 32 by omega, show 26 + (j - 26) = j by omega]
  have hbound := w.isLt
  apply BitVec.eq_of_toNat_eq
  rw [hshift, fieldOP_eq, BitVec.toNat_shiftLeft, BitVec.toNat_ushiftRight, BitVec.toNat_ofNat, Nat.shiftLeft_eq,
    Nat.shiftRight_eq_div_pow]
  omega

theorem opWord_toNat {op : Nat} (hop : op < 64) : (BitVec.ofNat 32 (op * 2 ^ 26)).toNat = op * 2 ^ 26 := by
  rw [BitVec.toNat_ofNat]
  omega

theorem opWord_and_reservedMask {op : Nat} (hop : op < 64) (fmt : Format) :
    BitVec.ofNat 32 (op * 2 ^ 26) &&& fmt.reservedMask = 0 := by
  rw [reservedMask_iff, opWord_toNat hop]
  exact low_zero_of_low_zero _ 26 _ (Nat.mul_mod_left op _) (by cases fmt <;> decide)

theorem and_opMask_or_reservedMask (w : Word32) (fmt : Format) :
    w &&& (opMask ||| fmt.reservedMask) &&& fmt.reservedMask = w &&& fmt.reservedMask := by
  have habsorb : (opMask ||| fmt.reservedMask) &&& fmt.reservedMask = fmt.reservedMask := by cases fmt <;> rfl
  rw [BitVec.and_assoc, habsorb]

/-- A row selects the words with its OP and with no reserved bit of its format (R53). -/
theorem row_selects_iff (w : Word32) (mnemonic : String) {op : Nat} (hop : op < 64) (fmt : Format) :
    w &&& (fmt.row mnemonic op).mask = (fmt.row mnemonic op).pattern ↔
      fieldOP w = op ∧ w &&& fmt.reservedMask = 0 := by
  have hsplit : w &&& (fmt.row mnemonic op).mask = w &&& opMask ||| w &&& fmt.reservedMask :=
    BitVec.and_or_distrib_left
  have hselected (hreserved : w &&& fmt.reservedMask = 0) :
      w &&& (fmt.row mnemonic op).mask = BitVec.ofNat 32 (fieldOP w * 2 ^ 26) := by
    rw [hsplit, hreserved, and_opMask]
    exact BitVec.or_zero
  constructor
  · intro h
    have hreserved : w &&& fmt.reservedMask = 0 := by
      rw [← and_opMask_or_reservedMask]
      exact (congrArg (· &&& fmt.reservedMask) h).trans (opWord_and_reservedMask hop fmt)
    have hword : BitVec.ofNat 32 (fieldOP w * 2 ^ 26) = BitVec.ofNat 32 (op * 2 ^ 26) :=
      (hselected hreserved).symm.trans h
    have hfield : fieldOP w < 64 := (w.extractLsb' 26 6).isLt
    have hnat := congrArg BitVec.toNat hword
    rw [opWord_toNat hfield, opWord_toNat hop] at hnat
    exact ⟨by omega, hreserved⟩
  · rintro ⟨rfl, hreserved⟩
    exact hselected hreserved

theorem assigned_of_commandOf {op : Nat} {w : Word32} {fmt : Format} {i : Instr}
    (h : commandOf op w = some (fmt, i)) : (i.toLine.mnemonic, op, fmt) ∈ assignedOpcodes := by
  unfold commandOf at h
  split at h <;> cases h <;> simp [Instr.toLine, assignedOpcodes]

theorem commandOf_of_assigned (w : Word32) : ∀ a ∈ assignedOpcodes,
    ∃ i, commandOf a.2.1 w = some (a.2.2, i) ∧ i.toLine.mnemonic = a.1 := by
  simp [assignedOpcodes, commandOf, Instr.toLine]

theorem assigned_opcode_lt : ∀ a ∈ assignedOpcodes, a.2.1 < 64 := by decide

/-- The decoder and the table agree word by word (the last sentence of R53). -/
theorem decode_ok_iff_selected (w : Word32) (mnemonic : String) :
    (∃ i, decode w = .ok i ∧ i.toLine.mnemonic = mnemonic) ↔
      ∃ row ∈ opcodeTable, row.mnemonic = mnemonic ∧ w &&& row.mask = row.pattern := by
  rw [opcodeTable_eq_map]
  constructor
  · rintro ⟨i, hdecode, rfl⟩
    obtain ⟨fmt, hcmd, hlow⟩ := (decode_ok_iff w i).mp hdecode
    have hassigned := assigned_of_commandOf hcmd
    exact ⟨_, List.mem_map_of_mem hassigned, rfl,
      (row_selects_iff w _ (assigned_opcode_lt _ hassigned) fmt).mpr ⟨rfl, (reservedMask_iff fmt w).mpr hlow⟩⟩
  · rintro ⟨row, hrow, rfl, hselect⟩
    obtain ⟨a, hassigned, rfl⟩ := List.mem_map.mp hrow
    obtain ⟨hop, hreserved⟩ := (row_selects_iff w _ (assigned_opcode_lt a hassigned) a.2.2).mp hselect
    obtain ⟨i, hcmd, hname⟩ := commandOf_of_assigned w a hassigned
    exact ⟨i, (decode_ok_iff w i).mpr ⟨a.2.2, hop ▸ hcmd, (reservedMask_iff _ w).mp hreserved⟩, hname⟩

end Sys2Proof

namespace Sys2Proof.Proofs

/-- Settles O1: each format's word has the fields it was assembled from, and its reserved bits 0. -/
theorem decodeOfEncodeIsTheCommand : Obligations.DecodeOfEncodeIsTheCommand := decode_encode

/-- Settles O2: a legal word is put together again from the fields that its format uses. -/
theorem encodeOfDecodeIsTheWord : Obligations.EncodeOfDecodeIsTheWord := fun _ _ h => encode_of_decode h

/-- Settles O3: both directions are `decode_ok_iff_selected`, at the command's own mnemonic and at the row's. -/
theorem decoderAcceptsTheOpcodeTable : Obligations.DecoderAcceptsTheOpcodeTable := by
  refine ⟨fun w i h => ?selected, fun w row hrow hselect => ?decodes⟩
  case selected =>
    obtain ⟨row, hrow, _, hselect⟩ := (decode_ok_iff_selected w _).mp ⟨i, h, rfl⟩
    exact ⟨row, hrow, hselect⟩
  case decodes => exact (decode_ok_iff_selected w row.mnemonic).mpr ⟨row, hrow, rfl, hselect⟩

/-- Settles O4: the decoder evaluated on the eight words. -/
theorem exampleWordsDecode : Obligations.ExampleWordsDecode := ⟨rfl, rfl, rfl, rfl, rfl, rfl, rfl, rfl⟩

end Sys2Proof.Proofs
end

section
/-! PROOF. The three invariants of a step (10_state.md R18-R23, 20_memory.md R31; 60_exceptions.md R94): a step is made
of a handful of updates of the state, so a property that each of them keeps is kept by every step. -/

namespace Sys2Proof.Machine

open Sys2Proof.Safety

variable {s t : State}

/-! ## A property that every update keeps -/

/-- The property is kept by each update that a transaction or a command makes, under the checks that the update has
passed. -/
structure KeptByUpdates (P : State → Prop) : Prop where
  afterTxn : ∀ s rest, P s → P (s.afterTxn rest)
  observe : ∀ s x, P s → P (s.observe x)
  hostReset : ∀ s, P s → P s.hostReset
  startCommand : ∀ s, P s → P s.startCommand
  finishCommand : ∀ s, P s → P s.finishCommand
  raiseFault : ∀ s c w, P s → P (raiseFault c w s)
  writeV : ∀ s d b, P s → P (s.writeV d b)
  writeR : ∀ s d x, P s → P (s.writeR d x)
  writeByte : ∀ s a b, a < s.bufSize → P s → P (s.writeByte a b)
  memWrite : ∀ s a bs, a + bs.length ≤ s.bufSize → P s → P (s.memWrite a bs)
  installTable : ∀ s h, P s → P (s.installTable (buildProductTable h))

variable {P : State → Prop}

theorem KeptByUpdates.exec (hP : KeptByUpdates P) {i : Instr} (hs : P s) (h : exec i s = .next t) : P t := by
  rcases exec_cases h with ⟨c, rfl⟩ | ⟨_, rfl⟩ | ⟨_, d, b, rfl⟩ | ⟨_, d, x, rfl⟩ | ⟨_, a, bs, hin, rfl⟩ |
    ⟨va, _, _, rfl⟩
  · exact hP.raiseFault s c _ hs
  · exact hs
  · exact hP.writeV s d b hs
  · exact hP.writeR s d x hs
  · exact hP.memWrite s a bs hin hs
  · exact hP.installTable s _ hs

theorem KeptByUpdates.runCommand (hP : KeptByUpdates P) {w : Word32} (hs : P s) (h : runCommand w s = .next t) :
    P t := by
  rcases runCommand_cases h with ⟨_, rfl⟩ | ⟨_, _, rfl⟩ | ⟨_, i, _, hexec⟩
  · exact hs
  · exact hP.raiseFault s _ w hs
  · exact hP.exec hs hexec

theorem KeptByUpdates.issue (hP : KeptByUpdates P) {w : Word32} (hs : P s) (h : issue w s = .next t) : P t := by
  obtain ⟨u, hrun, rfl⟩ := issue_cases h
  exact hP.finishCommand u (hP.runCommand (hP.startCommand s hs) hrun)

theorem KeptByUpdates.hostStep (hP : KeptByUpdates P) {x : HostTxn} (hs : P s) (h : hostStep x s = .next t) : P t := by
  rcases hostStep_cases h with ⟨_, hwrite⟩ | ⟨_, rfl⟩ | ⟨y, _, _, rfl⟩
  · rcases hwrite with ⟨i, v, _, rfl⟩ | ⟨i, b, _, rfl⟩ | ⟨a, b, _, hin, rfl⟩ | ⟨w, _, hissue⟩
    · exact hP.writeR s i v hs
    · exact hP.writeV s i _ hs
    · exact hP.writeByte s a b hin hs
    · exact hP.issue hs hissue
  · exact hP.hostReset s hs
  · exact hP.observe s y hs

theorem KeptByUpdates.step (hP : KeptByUpdates P) (hs : P s) (h : step s = .next t) : P t := by
  rcases step_cases h with ⟨_, rfl⟩ | ⟨x, rest, _, hx⟩
  · exact hs
  · exact hP.hostStep (hP.afterTxn s rest hs) hx

/-! ## STATUS and FCMD -/

/-- The part of the STATUS invariant that holds while a command executes too. -/
def FaultConsistent (s : State) : Prop :=
  (s.fault = false → s.code = 0 ∧ s.fcmd = 0) ∧ (s.fault = true → 1 ≤ s.code.toNat ∧ s.code.toNat ≤ 7)

theorem statusConsistent_iff (s : State) : StatusConsistent s ↔ FaultConsistent s ∧ s.busy = false :=
  and_assoc.symm

/-- The codes of R94 are 1..7. -/
theorem FaultCode.number_range (c : FaultCode) : 1 ≤ c.number.toNat ∧ c.number.toNat ≤ 7 := by
  cases c <;> decide

theorem faultConsistent_raiseFault (c : FaultCode) (w : Word32) (s : State) : FaultConsistent (raiseFault c w s) :=
  ⟨fun h => absurd h (by simp), fun _ => c.number_range⟩

theorem faultConsistent_hostReset (s : State) : FaultConsistent s.hostReset :=
  ⟨fun _ => ⟨rfl, rfl⟩, fun h => absurd h (by simp)⟩

theorem faultConsistent_installTable (tab : Vector Elem 16) (hs : FaultConsistent s) :
    FaultConsistent (s.installTable tab) := hs

theorem keptByUpdates_faultConsistent : KeptByUpdates FaultConsistent where
  hostReset s _ := faultConsistent_hostReset s
  raiseFault s c w _ := faultConsistent_raiseFault c w s
  afterTxn _ _ h := h
  observe _ _ h := h
  startCommand _ h := h
  finishCommand _ h := h
  writeV _ _ _ h := h
  writeR _ _ _ h := h
  writeByte _ _ _ _ h := h
  memWrite _ _ _ _ h := h
  installTable _ _ h := faultConsistent_installTable _ h

/-- BUSY is clear after every transaction: only the issue of a command sets it, and completing clears it (R106). -/
theorem hostStep_keeps_idle {x : HostTxn} (hbusy : s.busy = false) (h : hostStep x s = .next t) : t.busy = false := by
  rcases hostStep_cases h with ⟨_, hwrite⟩ | ⟨_, rfl⟩ | ⟨y, _, _, rfl⟩
  · rcases hwrite with ⟨i, v, _, rfl⟩ | ⟨i, b, _, rfl⟩ | ⟨a, b, _, _, rfl⟩ | ⟨w, _, hissue⟩
    · exact hbusy
    · exact hbusy
    · exact hbusy
    · obtain ⟨u, _, rfl⟩ := issue_cases hissue
      exact finishCommand_busy u
  · exact hostReset_busy s
  · exact hbusy

theorem step_keeps_idle (hbusy : s.busy = false) (h : step s = .next t) : t.busy = false := by
  rcases step_cases h with ⟨_, rfl⟩ | ⟨x, rest, _, hx⟩
  · exact hbusy
  · exact hostStep_keeps_idle (s := s.afterTxn rest) hbusy hx

/-! ## TAB and TV -/

/-- The table of H holds H at rev4(1) = 8 and zero at 0 (R66). -/
theorem buildProductTable_eight (h : Elem) : tableEntry (buildProductTable h) 8 = h := tableEntry_rev4 h 1

theorem buildProductTable_zero (h : Elem) : tableEntry (buildProductTable h) 0 = gfZero := tableEntry_rev4 h 0

theorem tableConsistent_installTable (s : State) (h : Elem) :
    TableConsistent (s.installTable (buildProductTable h)) := by
  refine ⟨fun htv => absurd htv (by simp), fun _ => ?_⟩
  rw [installTable_tab, installTable_readTab, buildProductTable_eight]

theorem tableConsistent_hostReset (s : State) : TableConsistent s.hostReset :=
  ⟨fun _ k => tableEntry_replicate k _, fun htv => absurd htv (by simp)⟩

theorem keptByUpdates_tableConsistent : KeptByUpdates TableConsistent where
  hostReset s _ := tableConsistent_hostReset s
  installTable s h _ := tableConsistent_installTable s h
  afterTxn _ _ h := h
  observe _ _ h := h
  startCommand _ h := h
  finishCommand _ h := h
  raiseFault _ _ _ h := h
  writeV _ _ _ h := h
  writeR _ _ _ h := h
  writeByte _ _ _ _ h := h
  memWrite _ _ _ _ h := h

/-! ## BUF -/

theorem bufConsistent_writeByte {a : Nat} (b : Byte) (ha : a < s.bufSize) (hs : BufConsistent s) :
    BufConsistent (s.writeByte a b) := by
  obtain ⟨hwf, hinside, hsize⟩ := hs
  refine ⟨Memory.put_wf _ a b hwf, fun c hc => ?_, hsize⟩
  rcases Memory.mem_put _ _ _ _ hc with rfl | hc
  · exact ha
  · exact hinside c hc

theorem bufConsistent_memWrite {a : Nat} {bs : List Byte} (ha : a + bs.length ≤ s.bufSize) (hs : BufConsistent s) :
    BufConsistent (s.memWrite a bs) := by
  obtain ⟨hwf, hinside, hsize⟩ := hs
  refine ⟨Memory.putAll_wf bs _ a hwf, fun c hc => ?_, hsize⟩
  rcases Memory.mem_putAll _ _ _ _ hc with hc | ⟨_, hend⟩
  · exact hinside c hc
  · exact Nat.lt_of_lt_of_le hend ha

theorem bufConsistent_of_empty (hbuf : s.buf = []) (hsize : Config.legalBufSize s.bufSize = true) :
    BufConsistent s := by
  simp [BufConsistent, hbuf, hsize]

theorem bufConsistent_installTable (tab : Vector Elem 16) (hs : BufConsistent s) :
    BufConsistent (s.installTable tab) := hs

theorem keptByUpdates_bufConsistent : KeptByUpdates BufConsistent where
  writeByte _ _ b ha h := bufConsistent_writeByte b ha h
  memWrite _ _ _ ha h := bufConsistent_memWrite ha h
  hostReset := fun _ ⟨_, _, hsize⟩ => bufConsistent_of_empty rfl hsize
  afterTxn _ _ h := h
  observe _ _ h := h
  startCommand _ h := h
  finishCommand _ h := h
  raiseFault _ _ _ h := h
  writeV _ _ _ h := h
  writeR _ _ _ h := h
  installTable _ _ h := bufConsistent_installTable _ h

/-! ## Reset -/

theorem statusConsistent_resetWith (n d : Nat) : StatusConsistent (State.resetWith n d) :=
  ⟨fun _ => ⟨rfl, rfl⟩, fun h => absurd h (by simp [State.resetWith]), rfl⟩

theorem tableConsistent_resetWith (n d : Nat) : TableConsistent (State.resetWith n d) :=
  ⟨fun _ k => tableEntry_replicate k _, fun h => absurd h (by simp [State.resetWith])⟩

theorem bufConsistent_resetWith {n : Nat} (d : Nat) (hmin : 16 ≤ n) (hmax : n ≤ 2 ^ 64) :
    BufConsistent (State.resetWith n d) :=
  bufConsistent_of_empty rfl (decide_eq_true ⟨hmin, hmax⟩)

end Sys2Proof.Machine

namespace Sys2Proof.Proofs

open Sys2Proof.Machine

/-- Settles O17: the fault fields update by update, and BUSY transaction by transaction. -/
theorem stepKeepsStatusConsistent : Obligations.StepKeepsStatusConsistent := by
  intro s t hs h
  obtain ⟨hfault, hbusy⟩ := (statusConsistent_iff s).mp hs
  exact (statusConsistent_iff t).mpr ⟨keptByUpdates_faultConsistent.step hfault h, step_keeps_idle hbusy h⟩

/-- Settles O18: of the updates only reset and BUILDTAB's write TAB and TV. -/
theorem stepKeepsTableConsistent : Obligations.StepKeepsTableConsistent :=
  fun _ _ hs h => keptByUpdates_tableConsistent.step hs h

/-- Settles O19: a host write and a string of bytes stay in BUF by their bounds checks, and reset empties the list. -/
theorem stepKeepsBufConsistent : Obligations.StepKeepsBufConsistent :=
  fun _ _ hs h => keptByUpdates_bufConsistent.step hs h

/-- Settles O20: each invariant at the reset state of a legal size, of which 65536 is one. -/
theorem resetMeetsTheInvariants : Obligations.ResetMeetsTheInvariants :=
  ⟨fun n d hmin hmax =>
      ⟨statusConsistent_resetWith n d, tableConsistent_resetWith n d, bufConsistent_resetWith d hmin hmax⟩,
    statusConsistent_resetWith _ _, tableConsistent_resetWith _ _, bufConsistent_resetWith _ (by decide) (by decide)⟩

end Sys2Proof.Proofs
end

section
/-! PROOF. The host port and the step (10_state.md R22, R28; 60_exceptions.md R105, R106, R109; 70_reset_and_hazards.md
R110): what each transaction does when it is admitted, which are refused, and what a step makes of the next one. -/

namespace Sys2Proof.Machine

open Sys2Proof.Safety

variable {s t : State}

/-! ## STATUS bit by bit (R22) -/

theorem statusBit_getLsbD (b : Bool) {k j : Nat} (hj : j < 32) :
    (statusBit b k).getLsbD j = (b && decide (j = k)) := by
  cases b with
  | false => simp [statusBit]
  | true =>
    rw [statusBit, if_pos rfl, BitVec.getLsbD_shiftLeft, BitVec.getLsbD_one, Bool.true_and, Bool.eq_iff_iff]
    simp [hj]
    omega

theorem statusWord_getLsbD {j : Nat} (hj : j < 32) (s : State) :
    s.statusWord.getLsbD j = (s.fault && decide (j = 0) || s.tv && decide (j = 1) || s.busy && decide (j = 2) ||
      decide (8 ≤ j) && s.code.getLsbD (j - 8)) := by
  have hcode : (s.code.setWidth 32 <<< 8).getLsbD j = (decide (8 ≤ j) && s.code.getLsbD (j - 8)) := by
    by_cases h8 : j < 8
    · simp [h8, Nat.not_le_of_lt h8]
    · simp [hj, h8, Nat.le_of_not_lt h8]
  rw [State.statusWord, BitVec.getLsbD_or, BitVec.getLsbD_or, BitVec.getLsbD_or, statusBit_getLsbD _ hj,
    statusBit_getLsbD _ hj, statusBit_getLsbD _ hj, hcode]

/-! ## Transactions that are not admitted (93_implementation_defined.md U2, U3) -/

theorem whenIdle_of_busy {o : Host.Outcome State Fault Refusal} (h : s.busy = true) :
    whenIdle s o = .refused .hostWhileBusy := if_pos h

theorem whenInBuf_of_ge {a : Nat} {o : Host.Outcome State Fault Refusal} (h : s.bufSize ≤ a) :
    whenInBuf s a o = .refused .hostBufOutOfRange := if_neg (Nat.not_lt_of_le h)

theorem hostStep_of_busy {x : HostTxn} (hbusy : s.busy = true) (hstatus : x ≠ .rdStatus) (hreset : x ≠ .reset) :
    hostStep x s = .refused .hostWhileBusy := by
  cases x with
  | rdStatus => exact absurd rfl hstatus
  | reset => exact absurd rfl hreset
  | wrR | rdR | wrV | rdV | wrBuf | rdBuf | rdFcmd | issue => exact whenIdle_of_busy hbusy

theorem hostStep_wrBuf_of_ge {a : Nat} (b : Byte) (hbusy : s.busy = false) (ha : s.bufSize ≤ a) :
    hostStep (.wrBuf a b) s = .refused .hostBufOutOfRange :=
  (whenIdle_of_idle hbusy).trans (whenInBuf_of_ge ha)

theorem hostStep_rdBuf_of_ge {a : Nat} (hbusy : s.busy = false) (ha : s.bufSize ≤ a) :
    hostStep (.rdBuf a) s = .refused .hostBufOutOfRange :=
  (whenIdle_of_idle hbusy).trans (whenInBuf_of_ge ha)

/-! ## The issue of a word -/

/-- Whatever the word is, and whatever FAULT is, its issue answers a next state. -/
theorem goesOn_runCommand (w : Word32) (s : State) : GoesOn (runCommand w s) := by
  cases hfault : s.fault with
  | true => exact ⟨s, runCommand_of_fault w hfault⟩
  | false =>
    cases hd : decode w with
    | error e => exact ⟨_, runCommand_of_error hfault hd⟩
    | ok i => exact goesOn_runCommand_of_ok hfault hd

theorem hostStep_issue {w : Word32} (hbusy : s.busy = false) (h : runCommand w s.startCommand = .next t) :
    hostStep (.issue w) s = .next t.finishCommand := by
  rw [hostStep, whenIdle_of_idle hbusy, issue, h, completeCommand]

theorem step_of_pending {x : HostTxn} {rest : List HostTxn} (h : s.pending = x :: rest) :
    step s = hostStep x (s.afterTxn rest) := by
  rw [step, nextTransaction, h]

theorem step_of_idle (h : s.pending = []) : step s = .next s := by
  rw [step, nextTransaction, h]

/-- With BUSY = 0 only an address outside BUF stops a transaction. -/
theorem goesOn_hostStep {x : HostTxn} (hbusy : s.busy = false) (hwr : ∀ a b, x = .wrBuf a b → a < s.bufSize)
    (hrd : ∀ a, x = .rdBuf a → a < s.bufSize) : GoesOn (hostStep x s) := by
  cases x with
  | wrR | rdR | wrV | rdV | rdFcmd => exact ⟨_, whenIdle_of_idle hbusy⟩
  | wrBuf a b => exact ⟨_, (whenIdle_of_idle hbusy).trans (whenInBuf_of_lt (hwr a b rfl))⟩
  | rdBuf a => exact ⟨_, (whenIdle_of_idle hbusy).trans (whenInBuf_of_lt (hrd a rfl))⟩
  | rdStatus | reset => exact goesOn_next _
  | issue w =>
    obtain ⟨t, ht⟩ := goesOn_runCommand w s.startCommand
    exact ⟨_, hostStep_issue hbusy ht⟩

end Sys2Proof.Machine

namespace Sys2Proof.Proofs

open Sys2Proof.Machine Sys2Proof.Safety

/-- Settles O12: every bit of STATUS by `statusWord_getLsbD`. -/
theorem statusRegisterLayout : Obligations.StatusRegisterLayout := by
  intro s
  refine ⟨?fault, ?tv, ?busy, BitVec.eq_of_getLsbD_eq fun j hj => ?low, BitVec.eq_of_getLsbD_eq fun j hj => ?code,
    BitVec.eq_of_getLsbD_eq fun j hj => ?high⟩
  case fault => exact (statusWord_getLsbD (by omega) s).trans (by simp)
  case tv => exact (statusWord_getLsbD (by omega) s).trans (by simp)
  case busy => exact (statusWord_getLsbD (by omega) s).trans (by simp)
  case low =>
    rw [BitVec.getLsbD_extractLsb', statusWord_getLsbD (by omega)]
    simp [show ¬3 + j = 1 by omega, show ¬3 + j = 2 by omega, show ¬8 ≤ 3 + j by omega]
  case code =>
    rw [BitVec.getLsbD_extractLsb', statusWord_getLsbD (by omega)]
    simp [hj, show ¬8 + j = 1 by omega, show ¬8 + j = 2 by omega]
  case high =>
    rw [BitVec.getLsbD_extractLsb', statusWord_getLsbD (by omega)]
    simp [show ¬16 + j = 1 by omega, show ¬16 + j = 2 by omega, show 8 ≤ 16 + j - 8 by omega]

/-- Settles O13: the step hands the transaction to `hostStep`, whose issue is `runCommand` between the two writes of
BUSY. -/
theorem stepRunsTheDecodedCommand : Obligations.StepRunsTheDecodedCommand := by
  refine ⟨fun s x rest h => step_of_pending h, fun s w hbusy => ?issue, fun s w rest i hpending hbusy hfault hd => ?run,
    fun s w => ?place⟩
  case issue =>
    obtain ⟨t, ht⟩ := goesOn_runCommand w s.startCommand
    exact ⟨t, ht, hostStep_issue hbusy ht⟩
  case run =>
    obtain ⟨t, ht⟩ := goesOn_exec i (s.afterTxn rest).startCommand
    have hrun : runCommand w (s.afterTxn rest).startCommand = .next t := 
      (runCommand_of_ok (s := (s.afterTxn rest).startCommand) hfault hd).trans ht
    exact ⟨t, ht, (step_of_pending hpending).trans (hostStep_issue hbusy hrun)⟩
  case place =>
    have hword : BitVec.ofNat 32 (w % 2 ^ 32) = BitVec.ofNat 32 w := BitVec.eq_of_toNat_eq (by simp)
    exact congrArg (fun v => HostTxn.issue v :: s.pending) hword

/-- Settles O14: with nothing pending the step is the idle block. -/
theorem idleBlockKeepsItsState : Obligations.IdleBlockKeepsItsState := fun _ h => step_of_idle h

/-- Settles O15: each register of the reset state is an entry of a constant vector, and no BUF byte is listed. -/
theorem resetValues : Obligations.ResetValues := by
  intro n d s
  refine ⟨fun i => ?v, fun i => ?r, fun k => tableEntry_replicate k _, rfl, ?status, rfl, rfl, rfl, rfl, fun a => rfl⟩
  case v => simp [s, State.readV, State.resetWith]
  case r => simp [s, State.readR, State.resetWith]
  case status => simp [s, State.statusWord, statusBit, State.resetWith]

/-- Settles O16: `hostReset` by definition, in every state. -/
theorem hostResetGivesTheResetState : Obligations.HostResetGivesTheResetState := fun _ => rfl

/-- Settles O26: an admitted transaction is one write of a register or a byte, with that write's frame, or one value
added to the observation. -/
theorem hostTransactionsTakeEffect : Obligations.HostTransactionsTakeEffect := by
  intro s
  refine ⟨fun hbusy i x => ?wrR, fun hbusy _ => whenIdle_of_idle hbusy, fun hbusy i b => ?wrV,
    fun hbusy _ => whenIdle_of_idle hbusy, fun hbusy a b ha => ?wrBuf,
    fun hbusy _ ha => (whenIdle_of_idle hbusy).trans (whenInBuf_of_lt ha), rfl, fun hbusy => whenIdle_of_idle hbusy⟩
  case wrR => exact ⟨_, whenIdle_of_idle hbusy, writeR_readR_same s i x, onlyR_writeR i x s⟩
  case wrV =>
    refine ⟨_, whenIdle_of_idle hbusy, ?_, onlyV_writeV i _ s⟩
    rw [writeV_readV_same, Block.toBytes_ofBytes _ Vector.length_toList]
  case wrBuf =>
    exact ⟨_, (whenIdle_of_idle hbusy).trans (whenInBuf_of_lt ha), writeByte_readByte_same s a b,
      onlyBuf_writeByte a b s⟩

/-- Settles O27: BUSY and the bound of BUF are all that `hostStep` refuses, and `exec` always answers a next state. -/
theorem onlyTransactionsNotAdmittedAreRefused : Obligations.OnlyTransactionsNotAdmittedAreRefused :=
  ⟨fun _ _ hbusy hstatus hreset => hostStep_of_busy hbusy hstatus hreset,
    fun _ b _ hbusy ha => ⟨hostStep_wrBuf_of_ge b hbusy ha, hostStep_rdBuf_of_ge hbusy ha⟩,
    fun _ _ hbusy hwr hrd => goesOn_hostStep hbusy hwr hrd, goesOn_exec⟩

end Sys2Proof.Proofs
end

section
/-! PROOF. The writers of TAB and TV (10_state.md R18, R19): of all transactions only reset, and the issue of a
BUILDTAB that completes, change them. -/

namespace Sys2Proof.Machine

open Sys2Proof.Safety

variable {s t : State}

theorem runCommand_table_cases {w : Word32} (h : runCommand w s = .next t) :
    (t.tab = s.tab ∧ t.tv = s.tv) ∨ (t.tv = true ∧ ∃ va, decode w = .ok (.buildtab va)) := by
  rcases runCommand_cases h with ⟨_, rfl⟩ | ⟨_, _, rfl⟩ | ⟨_, i, hd, hexec⟩
  · exact .inl ⟨rfl, rfl⟩
  · exact .inl ⟨raiseFault_tab _ _ s, raiseFault_tv _ _ s⟩
  · rcases exec_table_cases hexec with hsame | ⟨va, rfl, _, rfl⟩
    · exact .inl hsame
    · exact .inr ⟨installTable_tv s _, va, hd⟩

theorem issue_table_cases {w : Word32} (h : issue w s = .next t) :
    (t.tab = s.tab ∧ t.tv = s.tv) ∨ (t.tv = true ∧ ∃ va, decode w = .ok (.buildtab va)) := by
  obtain ⟨u, hrun, rfl⟩ := issue_cases h
  exact runCommand_table_cases (s := s.startCommand) (t := u) hrun

/-- A transaction leaves TAB and TV as they are, or it is reset, or it issues a BUILDTAB that completes. -/
theorem hostStep_table_cases {x : HostTxn} (h : hostStep x s = .next t) :
    (t.tab = s.tab ∧ t.tv = s.tv) ∨ (x = .reset ∧ t.tv = false) ∨
      (t.tv = true ∧ ∃ w va, x = .issue w ∧ decode w = .ok (.buildtab va)) := by
  rcases hostStep_cases h with ⟨_, hwrite⟩ | ⟨rfl, rfl⟩ | ⟨y, _, _, rfl⟩
  · rcases hwrite with ⟨i, v, _, rfl⟩ | ⟨i, b, _, rfl⟩ | ⟨a, b, _, _, rfl⟩ | ⟨w, rfl, hissue⟩
    · exact .inl ⟨writeR_tab s i v, writeR_tv s i v⟩
    · exact .inl ⟨writeV_tab s i _, writeV_tv s i _⟩
    · exact .inl ⟨writeByte_tab s a b, writeByte_tv s a b⟩
    · rcases issue_table_cases hissue with hsame | ⟨htv, va, hd⟩
      · exact .inl hsame
      · exact .inr (.inr ⟨htv, w, va, rfl, hd⟩)
  · exact .inr (.inl ⟨rfl, hostReset_tv s⟩)
  · exact .inl ⟨observe_tab s y, observe_tv s y⟩

end Sys2Proof.Machine

namespace Sys2Proof.Proofs

open Sys2Proof.Machine

/-- Settles O21: BUILDTAB through `execBuildtab_of_invalid`, every transaction through `hostStep_table_cases`, and the
table invariant's two halves. -/
theorem tableValidFlagWriters : Obligations.TableValidFlagWriters := by
  refine ⟨fun va s htv => ⟨_, execBuildtab_of_invalid va htv, rfl⟩, fun x s t h hne => ?writers, fun s t h => ?reset,
    fun s => ?status, fun s ⟨hinvalid, hvalid⟩ => ⟨fun htv => ⟨_, hvalid htv⟩, hinvalid⟩⟩
  case writers =>
    rcases hostStep_table_cases h with ⟨_, hsame⟩ | hreset | hbuild
    · exact absurd hsame hne
    · exact .inl hreset
    · exact .inr hbuild
  case reset =>
    cases h
    exact hostReset_tv s
  case status =>
    obtain ⟨_, htv, _⟩ := statusRegisterLayout s
    exact htv

end Sys2Proof.Proofs
end

section
/-! PROOF. The write columns of the access table (10_state.md R27): each update of the state has its frame, and a
command makes only an update that its columns let it make. -/

namespace Sys2Proof.Machine

open Sys2Proof.Safety

variable {s t : State}

/-- The frame of a command, by the kinds of state that R27 lets it write. -/
def Frame (i : Instr) (s t : State) : Prop :=
  (writesV i = false → SameV s t) ∧ (writesR i = false → SameR s t) ∧ (writesTable i = false → SameTable s t) ∧
    (writesBuf i = false → SameBuf s t) ∧ (t.fault = s.fault → s.fault = false → SameStatus s t)

theorem frame_refl (i : Instr) (s : State) : Frame i s s :=
  ⟨fun _ _ => rfl, fun _ _ => rfl, fun _ => ⟨fun _ => rfl, rfl⟩, fun _ _ => rfl, fun _ _ => ⟨rfl, rfl, rfl, rfl⟩⟩

theorem frame_raiseFault (i : Instr) (c : FaultCode) (w : Word32) (s : State) : Frame i s (raiseFault c w s) :=
  ⟨fun _ j => raiseFault_readV c w s j, fun _ j => raiseFault_readR c w s j,
    fun _ => ⟨fun k => raiseFault_readTab c w s k, raiseFault_tv c w s⟩, fun _ a => raiseFault_readByte c w s a,
    fun hsame hclear => by simp [hclear] at hsame⟩

theorem frame_writeV {i : Instr} (hi : writesV i = true) (d : VReg) (b : Block) (s : State) :
    Frame i s (s.writeV d b) := by
  obtain ⟨_, hr, htable, hbuf, hstatus, _⟩ := onlyV_writeV d b s
  exact ⟨fun hv => by simp [hi] at hv, fun _ => hr, fun _ => htable, fun _ => hbuf, fun _ _ => hstatus⟩

theorem frame_writeR {i : Instr} (hi : writesR i = true) (d : SReg) (x : Word64) (s : State) :
    Frame i s (s.writeR d x) := by
  obtain ⟨hv, _, htable, hbuf, hstatus, _⟩ := onlyR_writeR d x s
  exact ⟨fun _ => hv, fun hr => by simp [hi] at hr, fun _ => htable, fun _ => hbuf, fun _ _ => hstatus⟩

theorem frame_memWrite {i : Instr} (hi : writesBuf i = true) (a : Nat) (bs : List Byte) (s : State) :
    Frame i s (s.memWrite a bs) := by
  obtain ⟨hv, hr, htable, _, hstatus, _⟩ := onlyBuf_memWrite a _ bs rfl s
  exact ⟨fun _ => hv, fun _ => hr, fun _ => htable, fun hb => by simp [hi] at hb, fun _ _ => hstatus⟩

theorem frame_installTable (va : VReg) (tab : Vector Elem 16) (s : State) :
    Frame (.buildtab va) s (s.installTable tab) := by
  obtain ⟨hv, hr, hbuf, hstatus, _⟩ := onlyTable_installTable tab s
  exact ⟨fun _ => hv, fun _ => hr, fun ht => by simp [writesTable] at ht, fun _ => hbuf, fun _ _ => hstatus⟩

theorem exec_frame {i : Instr} (h : exec i s = .next t) : Frame i s t := by
  rcases exec_cases h with ⟨c, rfl⟩ | ⟨_, rfl⟩ | ⟨hi, d, b, rfl⟩ | ⟨hi, d, x, rfl⟩ | ⟨hi, a, bs, _, rfl⟩ |
    ⟨va, rfl, _, rfl⟩
  · exact frame_raiseFault i c _ s
  · exact frame_refl i t
  · exact frame_writeV hi d b s
  · exact frame_writeR hi d x s
  · exact frame_memWrite hi a bs s
  · exact frame_installTable va _ s

end Sys2Proof.Machine

namespace Sys2Proof.Proofs

open Sys2Proof.Machine

/-- Settles O23: the frame of whichever update the command made, and what no command writes. -/
theorem commandsWriteOnlyTheirState : Obligations.CommandsWriteOnlyTheirState := by
  intro i s t h
  obtain ⟨hv, hr, htable, hbuf, hstatus⟩ := exec_frame h
  obtain ⟨hrest, hbusy⟩ := exec_rest h
  exact ⟨hv, hr, htable, hbuf, hstatus, hbusy, hrest⟩

end Sys2Proof.Proofs
end

section
/-! PROOF. The table of faults (60_exceptions.md R94): a command that faults has a failing check, and each check of
each command stands for one code and one cause. -/

namespace Sys2Proof.Machine

open Sys2Proof.Safety

variable {s t : State}

/-- The fault reported is that of a check that fails. -/
theorem mem_checks_of_firstFailure {i : Instr} {c : BitVec 8} (h : firstFailure s i = some c) :
    (true, c) ∈ checks s i := by
  obtain ⟨⟨failed, code⟩, hfind, rfl⟩ := Option.map_eq_some_iff.mp h
  have hfailed : failed = true := List.find?_some hfind
  exact hfailed ▸ List.mem_of_find?_eq_some hfind

/-- The seven codes, each with the commands that raise it and its cause. -/
def FaultCause (w : Word32) (s : State) (c : BitVec 8) : Prop :=
  (c = 1 ∧ ∃ e, decode w = .error e) ∨
  (c = 2 ∧ s.tv = false ∧
    ((∃ vd va, decode w = .ok (.gfmulh vd va)) ∨ ∃ vd rs rn, decode w = .ok (.absorb vd rs rn))) ∨
  (c = 3 ∧ s.tv = true ∧ ∃ va, decode w = .ok (.buildtab va)) ∨
  (c = 4 ∧ ∃ vd va rn, decode w = .ok (.ctrinit vd va rn) ∧ s.readR rn ≠ 12) ∨
  (c = 5 ∧
    ((∃ rd rs, decode w = .ok (.rev4 rd rs) ∧ 15 < (s.readR rs).toNat) ∨
      ∃ rd ra rla rb rlb, decode w = .ok (.ovlp rd ra rla rb rlb) ∧
        (2 ^ 64 < (s.readR ra).toNat + (s.readR rla).toNat ∨ 2 ^ 64 < (s.readR rb).toNat + (s.readR rlb).toNat))) ∨
  (c = 6 ∧
    ((∃ vd rs, decode w = .ok (.ldv vd rs) ∧ s.bufSize < (s.readR rs).toNat + 16) ∨
      (∃ va rs, decode w = .ok (.stv va rs) ∧ s.bufSize < (s.readR rs).toNat + 16) ∨
      (∃ vd rs rn, decode w = .ok (.absorb vd rs rn) ∧ s.bufSize < (s.readR rs).toNat + (s.readR rn).toNat) ∨
      ∃ rd ra rb rn, decode w = .ok (.xorm rd ra rb rn) ∧
        (s.bufSize < (s.readR rd).toNat + (s.readR rn).toNat ∨
          s.bufSize < (s.readR ra).toNat + (s.readR rn).toNat ∨
          s.bufSize < (s.readR rb).toNat + (s.readR rn).toNat))) ∨
  (c = 7 ∧ ∃ rd ra rb rn, decode w = .ok (.xorm rd ra rb rn) ∧
    (inexactOverlap (s.readR rd).toNat (s.readR rn).toNat (s.readR ra).toNat (s.readR rn).toNat = true ∨
      inexactOverlap (s.readR rd).toNat (s.readR rn).toNat (s.readR rb).toNat (s.readR rn).toNat = true))

theorem faultCause_of_check {w : Word32} {i : Instr} {c : BitVec 8} (hd : decode w = .ok i)
    (h : (true, c) ∈ checks s i) : FaultCause w s c := by
  unfold FaultCause
  cases i with
  | nop | gfadd | gfdbl | rdtab | inc32 => simp [checks] at h
  | gfmulh vd va =>
    obtain ⟨htv, rfl⟩ : s.tv = false ∧ c = 2 := by simpa [checks] using h
    exact .inr (.inl ⟨rfl, htv, .inl ⟨vd, va, hd⟩⟩)
  | buildtab va =>
    obtain ⟨htv, rfl⟩ : s.tv = true ∧ c = 3 := by simpa [checks] using h
    exact .inr (.inr (.inl ⟨rfl, htv, va, hd⟩))
  | absorb vd rs rn =>
    obtain ⟨htv, rfl⟩ | ⟨hout, rfl⟩ :
        (s.tv = false ∧ c = 2) ∨ (s.bufSize < (s.readR rs).toNat + (s.readR rn).toNat ∧ c = 6) := by
      simpa [checks] using h
    · exact .inr (.inl ⟨rfl, htv, .inr ⟨vd, rs, rn, hd⟩⟩)
    · exact .inr (.inr (.inr (.inr (.inr (.inl ⟨rfl, .inr (.inr (.inl ⟨vd, rs, rn, hd, hout⟩))⟩)))))
  | ctrinit vd va rn =>
    obtain ⟨hlen, rfl⟩ : s.readR rn ≠ 12 ∧ c = 4 := by simpa [checks] using h
    exact .inr (.inr (.inr (.inl ⟨rfl, vd, va, rn, hd, hlen⟩)))
  | rev4 rd rs =>
    obtain ⟨hbig, rfl⟩ : 15 < (s.readR rs).toNat ∧ c = 5 := by simpa [checks] using h
    exact .inr (.inr (.inr (.inr (.inl ⟨rfl, .inl ⟨rd, rs, hd, hbig⟩⟩))))
  | ovlp rd ra rla rb rlb =>
    have hpast : (2 ^ 64 < (s.readR ra).toNat + (s.readR rla).toNat ∨
        2 ^ 64 < (s.readR rb).toNat + (s.readR rlb).toNat) ∧ c = 5 := by
      simpa [checks, ← or_and_right] using h
    obtain ⟨hpast, rfl⟩ := hpast
    exact .inr (.inr (.inr (.inr (.inl ⟨rfl, .inr ⟨rd, ra, rla, rb, rlb, hd, hpast⟩⟩))))
  | ldv vd rs =>
    obtain ⟨hout, rfl⟩ : s.bufSize < (s.readR rs).toNat + 16 ∧ c = 6 := by simpa [checks] using h
    exact .inr (.inr (.inr (.inr (.inr (.inl ⟨rfl, .inl ⟨vd, rs, hd, hout⟩⟩)))))
  | stv va rs =>
    obtain ⟨hout, rfl⟩ : s.bufSize < (s.readR rs).toNat + 16 ∧ c = 6 := by simpa [checks] using h
    exact .inr (.inr (.inr (.inr (.inr (.inl ⟨rfl, .inr (.inl ⟨va, rs, hd, hout⟩)⟩)))))
  | xorm rd ra rb rn =>
    obtain ⟨hout, rfl⟩ | ⟨halias, rfl⟩ :
        ((s.bufSize < (s.readR rd).toNat + (s.readR rn).toNat ∨ s.bufSize < (s.readR ra).toNat + (s.readR rn).toNat ∨
          s.bufSize < (s.readR rb).toNat + (s.readR rn).toNat) ∧ c = 6) ∨
        ((inexactOverlap (s.readR rd).toNat (s.readR rn).toNat (s.readR ra).toNat (s.readR rn).toNat = true ∨
          inexactOverlap (s.readR rd).toNat (s.readR rn).toNat (s.readR rb).toNat (s.readR rn).toNat = true) ∧
          c = 7) := by
      simp only [checks, decide_inexact] at h
      simpa [or_and_right, or_assoc] using h
    · exact .inr (.inr (.inr (.inr (.inr (.inl
        ⟨rfl, .inr (.inr (.inr ⟨rd, ra, rb, rn, hd, hout⟩))⟩)))))
    · exact .inr (.inr (.inr (.inr (.inr (.inr ⟨rfl, rd, ra, rb, rn, hd, halias⟩)))))

theorem faultCause_of_runCommand {w : Word32} (hfault : s.fault = false) (h : runCommand w s = .next t)
    (ht : t.fault = true) : FaultCause w s t.code := by
  obtain ⟨c, rfl, ⟨rfl, herror⟩ | ⟨i, hd, hfail⟩⟩ := runCommand_fault_cases hfault h ht
  · exact .inl ⟨rfl, herror⟩
  · exact faultCause_of_check hd (mem_checks_of_firstFailure hfail)

end Sys2Proof.Machine

namespace Sys2Proof.Proofs

open Sys2Proof.Machine

/-- Settles O10: the fault reported is that of a failing check, and each check names its cause. -/
theorem eachFaultHasItsCodeAndCause : Obligations.EachFaultHasItsCodeAndCause :=
  fun _ _ _ hfault h ht => faultCause_of_runCommand hfault h ht

end Sys2Proof.Proofs
end

section
/-! PROOF. The failed run (60_exceptions.md R96, 70_reset_and_hazards.md R113): a step of a failed block whose host
does not reset keeps the fault and the table, and leaves no reset to come. -/

namespace Sys2Proof.Machine

open Sys2Proof.Safety

variable {s t : State}

/-- t is failed, with the first fault and the table of s. -/
def SameFailure (s t : State) : Prop :=
  Failed t ∧ t.code = s.code ∧ t.fcmd = s.fcmd ∧ t.tab = s.tab ∧ t.tv = s.tv

theorem SameFailure.refl (h : Failed s) : SameFailure s s := ⟨h, rfl, rfl, rfl, rfl⟩

theorem SameFailure.trans {u : State} (h : SameFailure s t) (h' : SameFailure t u) : SameFailure s u := by
  obtain ⟨_, hcode, hfcmd, htab, htv⟩ := h
  obtain ⟨hfailed, hcode', hfcmd', htab', htv'⟩ := h'
  exact ⟨hfailed, hcode'.trans hcode, hfcmd'.trans hfcmd, htab'.trans htab, htv'.trans htv⟩

/-- A failed block keeps its table: it discards the one command that could install another. -/
theorem hostStep_sameFailure {x : HostTxn} (hfailed : Failed s) (hx : x ≠ .reset) (h : hostStep x s = .next t) :
    SameFailure s t := by
  obtain ⟨hfault, hcode, hfcmd⟩ := hostStep_keeps_fault hfailed hx h
  refine ⟨hfault, hcode, hfcmd, ?_⟩
  rcases hostStep_cases h with ⟨hbusy, hwrite⟩ | ⟨hreset, _⟩ | ⟨y, _, _, rfl⟩
  · rcases hwrite with ⟨i, v, _, rfl⟩ | ⟨i, b, _, rfl⟩ | ⟨a, b, _, _, rfl⟩ | ⟨w, rfl, _⟩
    · exact ⟨writeR_tab s i v, writeR_tv s i v⟩
    · exact ⟨writeV_tab s i _, writeV_tv s i _⟩
    · exact ⟨writeByte_tab s a b, writeByte_tv s a b⟩
    · cases (hostStep_issue_of_fault w hfailed hbusy).symm.trans h
      exact ⟨rfl, rfl⟩
  · exact absurd hreset hx
  · exact ⟨observe_tab s y, observe_tv s y⟩

theorem runCommand_keeps_pending {w : Word32} (h : runCommand w s = .next t) : t.pending = s.pending := by
  rcases runCommand_cases h with ⟨_, rfl⟩ | ⟨_, _, rfl⟩ | ⟨_, i, _, hexec⟩
  · rfl
  · exact raiseFault_pending _ _ s
  · obtain ⟨⟨_, _, hpending, _⟩, _⟩ := exec_rest hexec
    exact hpending

/-- A transaction adds none to those still to come (20_memory.md R41). -/
theorem hostStep_keeps_pending {x : HostTxn} (h : hostStep x s = .next t) : t.pending = s.pending := by
  rcases hostStep_cases h with ⟨_, hwrite⟩ | ⟨_, rfl⟩ | ⟨y, _, _, rfl⟩
  · rcases hwrite with ⟨i, v, _, rfl⟩ | ⟨i, b, _, rfl⟩ | ⟨a, b, _, _, rfl⟩ | ⟨w, _, hissue⟩
    · exact writeR_pending s i v
    · exact writeV_pending s i _
    · exact writeByte_pending s a b
    · obtain ⟨u, hrun, rfl⟩ := issue_cases hissue
      exact runCommand_keeps_pending (s := s.startCommand) (t := u) hrun
  · exact hostReset_pending s
  · exact observe_pending s y

theorem step_sameFailure (hfailed : Failed s) (hreset : HostTxn.reset ∉ s.pending) (h : step s = .next t) :
    SameFailure s t ∧ HostTxn.reset ∉ t.pending := by
  rcases step_cases h with ⟨_, rfl⟩ | ⟨x, rest, hpending, hx⟩
  · exact ⟨.refl hfailed, hreset⟩
  · rw [hpending, List.mem_cons, not_or] at hreset
    obtain ⟨hne, hrest⟩ := hreset
    have hkept : t.pending = rest := hostStep_keeps_pending hx
    exact ⟨hostStep_sameFailure (s := s.afterTxn rest) hfailed (Ne.symm hne) hx, hkept ▸ hrest⟩

/-- A run of one more step that ends in a state is a step and a run. -/
theorem run_succ_cases {M : Host.Core} {n : Nat} {s t : M.State} (h : M.run (n + 1) s = .next t) :
    ∃ u, M.step s = .next u ∧ M.run n u = .next t := by
  rw [run_succ] at h
  split at h
  · exact ⟨_, ‹_›, h⟩
  · cases h
  · cases h

theorem run_sameFailure (n : Nat) (hfailed : Failed s) (hreset : HostTxn.reset ∉ s.pending)
    (h : Host.Core.run Sys2Proof.core n s = .next t) : SameFailure s t := by
  induction n generalizing s with
  | zero =>
    cases h
    exact .refl hfailed
  | succ n ih =>
    obtain ⟨u, hstep, hrun⟩ := run_succ_cases (M := Sys2Proof.core) h
    obtain ⟨hsame, hreset'⟩ := step_sameFailure hfailed hreset hstep
    exact hsame.trans (ih hsame.1 hreset' hrun)

end Sys2Proof.Machine

namespace Sys2Proof.Proofs

open Sys2Proof.Machine

/-- Settles O25: by induction on the number of steps, each of which keeps the failure and adds no reset. -/
theorem failedRunKeepsItsFirstFault : Obligations.FailedRunKeepsItsFirstFault :=
  fun n _ _ hfailed hreset h => run_sameFailure n hfailed hreset h

end Sys2Proof.Proofs
end

section
/-! PROOF. The free draw of BUF does not matter (93_implementation_defined.md U1): a written byte reads the same over
every draw, and nothing but a read of BUF looks at the draw. -/

namespace Sys2Proof.Machine

open Sys2Proof.Safety

variable {s : State}

/-- The same answer over another draw. -/
def overDrawOutcome (d : Nat) : Host.Outcome State Fault Refusal → Host.Outcome State Fault Refusal
  | .next t => .next (overDraw d t)
  | .fault r => .fault r
  | .refused r => .refused r

theorem readByte_overDraw (d : Nat) {a : Nat} (h : Written s a) : (overDraw d s).readByte a = s.readByte a := by
  obtain ⟨b, hb⟩ := h
  simp [State.readByte, overDraw, hb]

theorem memRead_overDraw (d : Nat) {a n : Nat} (h : ∀ x, inRange a n x = true → Written s x) :
    (overDraw d s).memRead a n = s.memRead a n := by
  refine List.map_congr_left fun k hk => readByte_overDraw d (h (a + k) ?_)
  have hkn : k < n := List.mem_range.mp hk
  exact decide_eq_true ⟨by omega, by omega⟩

theorem memWrite_overDraw (d a : Nat) (bs : List Byte) (s : State) :
    (overDraw d s).memWrite a bs = overDraw d (s.memWrite a bs) := rfl

/-- No check looks at the draw, so both runs take the same branch. -/
theorem overDrawOutcome_ite {d : Nat} {p : Prop} [Decidable p] {o o' u u' : Host.Outcome State Fault Refusal}
    (h : u = overDrawOutcome d o) (h' : u' = overDrawOutcome d o') :
    (if p then u else u') = overDrawOutcome d (if p then o else o') := by
  rw [h, h', ← apply_ite (overDrawOutcome d)]

theorem overDrawOutcome_next {d : Nat} {t u : State} (h : u = overDraw d t) :
    Host.Outcome.next u = overDrawOutcome d (.next t) := congrArg _ h

/-- A command whose every byte read has been written answers the same over another draw. The three commands that read
BUF read the same string; the others do not look at the draw. -/
theorem exec_overDraw (i : Instr) (d : Nat) (h : ∀ a, readsAddress s i a = true → Written s a) :
    exec i (overDraw d s) = overDrawOutcome d (exec i s) := by
  cases i with
  | nop | gfadd | gfdbl | rdtab | inc32 => rfl
  | gfmulh | buildtab | ctrinit | ovlp | rev4 => exact overDrawOutcome_ite rfl rfl
  | stv va rs =>
    have hstore := memWrite_overDraw d (s.number rs) (Block.toBytes (s.readV va)) s
    exact overDrawOutcome_ite (overDrawOutcome_next hstore) rfl
  | ldv vd rs =>
    have hread : (overDraw d s).memRead (s.number rs) 16 = s.memRead (s.number rs) 16 := memRead_overDraw d h
    have hload := congrArg (fun bs => (overDraw d s).writeV vd (Block.ofBytes bs)) hread
    exact overDrawOutcome_ite (overDrawOutcome_next hload) rfl
  | absorb vd rs rn =>
    have hread : (overDraw d s).memRead (s.number rs) (s.number rn) = s.memRead (s.number rs) (s.number rn) :=
      memRead_overDraw d h
    have hfold := congrArg (fun bs => (overDraw d s).writeElem vd (gfAbsorb (s.readElem vd) bs s.tab)) hread
    exact overDrawOutcome_ite rfl (overDrawOutcome_ite (overDrawOutcome_next hfold) rfl)
  | xorm rd ra rb rn =>
    have hread (r : SReg) (hr : ∀ x, inRange (s.number r) (s.number rn) x = true → Written s x) :
        (overDraw d s).memRead (s.number r) (s.number rn) = s.memRead (s.number r) (s.number rn) :=
      memRead_overDraw d hr
    have ha := hread ra fun x hx => h x (Bool.or_eq_true_iff.mpr (.inl hx))
    have hb := hread rb fun x hx => h x (Bool.or_eq_true_iff.mpr (.inr hx))
    have hstore := congrArg₂ (fun x y => (overDraw d s).memWrite (s.number rd) (xorBytes x y)) ha hb
    exact overDrawOutcome_ite rfl (overDrawOutcome_ite rfl (overDrawOutcome_ite rfl (overDrawOutcome_ite rfl
      (overDrawOutcome_ite rfl (overDrawOutcome_next hstore)))))

end Sys2Proof.Machine

namespace Sys2Proof.Proofs

open Sys2Proof.Machine

/-- Settles O24: `exec_overDraw` at a command that answers a next state. -/
theorem unwrittenBytesDoNotMatter : Obligations.UnwrittenBytesDoNotMatter :=
  fun i _ _ d hwritten h => (exec_overDraw i d hwritten).trans (congrArg (overDrawOutcome d) h)

end Sys2Proof.Proofs
end

section
/-! PROOF. The field commands (40_gf128.md R67, R70-R76): the multiply commutes and absorbing is Horner's rule, by the
field product; each command is one write of its result, with that write's frame, on each side of its checks. -/

namespace Sys2Proof.Machine

open Sys2Proof.FieldSpec Polynomial

/-- R70 read both ways: the two products are congruent, so they are one element. -/
theorem mulH_comm (y h : Elem) : mulH y (buildProductTable h) = mulH h (buildProductTable y) := by
  apply eq_of_fieldEq
  have hswap := mulH_fieldEq h y
  rw [mul_comm] at hswap
  exact (mulH_fieldEq y h).trans hswap.symm

/-- One chunk of R71's loop. -/
theorem absorbStep_fieldEq (h acc : Elem) (data : List Byte) (k : Nat) :
    FieldEq (toPoly (absorbStep (buildProductTable h) data acc k))
      ((toPoly acc + toPoly (elem (dataChunk data k))) * toPoly h) := by
  rw [absorbStep, ← toPoly_add]
  exact mulH_fieldEq _ h

/-- The invariant of R71's loop: after n chunks, each has been multiplied by H once for itself and once for every
chunk after it. -/
theorem absorbStep_foldl_fieldEq (h acc : Elem) (data : List Byte) (n : Nat) :
    FieldEq (toPoly ((List.range n).foldl (absorbStep (buildProductTable h) data) acc))
      (toPoly acc * toPoly h ^ n +
        ∑ k ∈ Finset.range n, toPoly (elem (dataChunk data k)) * toPoly h ^ (n - k)) := by
  induction n with
  | zero => simp [FieldEq.refl]
  | succ n ih =>
    have hearlier : (∑ k ∈ Finset.range n, toPoly (elem (dataChunk data k)) * toPoly h ^ (n - k)) * toPoly h =
        ∑ k ∈ Finset.range n, toPoly (elem (dataChunk data k)) * toPoly h ^ (n + 1 - k) := by
      rw [Finset.sum_mul]
      refine Finset.sum_congr rfl fun k hk => ?_
      rw [mul_assoc, ← pow_succ, Nat.sub_add_comm (Finset.mem_range.mp hk).le]
    rw [List.range_succ, List.foldl_concat, Finset.sum_range_succ, ← hearlier, Nat.add_sub_cancel_left, pow_one]
    refine (absorbStep_fieldEq h _ data n).trans ?_
    have hstep := (ih.add (.refl (toPoly (elem (dataChunk data n))))).mul_right (toPoly h)
    convert hstep using 1
    ring

/-! ## The checks of TV -/

variable {s : State}

theorem execGfmulh_of_invalid (vd va : VReg) (h : s.tv = false) :
    execGfmulh vd va s = raise .notab (.gfmulh vd va) s := if_pos h

theorem execAbsorb_of_invalid (vd : VReg) (rs rn : SReg) (h : s.tv = false) :
    execAbsorb vd rs rn s = raise .notab (.absorb vd rs rn) s := if_pos h

/-! ## Addition and doubling in the byte view (R64, R65, R72, R73) -/

theorem bytes_gfAdd_elem (a b : Block) : bytes (gfAdd (elem a) (elem b)) = a ^^^ b := by
  rw [bytes_gfAdd, bytes_elem, bytes_elem]

theorem bytes_foldElem : bytes foldElem = 0xe1000000000000000000000000000000#128 := rfl

theorem coeff_elem (b : Block) (i : Nat) (hi : i < 128) : coeff (elem b) i = b.getLsbD (127 - i) := by
  rw [coeff_eq_bytes_getLsbD _ i hi, bytes_elem]

/-- The coefficient below c_i is the next higher bit of the number; there is none below c_0. -/
theorem coeff_elem_pred (b : Block) (j : Nat) (hj : j < 128) :
    (decide (1 ≤ 127 - j) && coeff (elem b) (127 - j - 1)) = (b >>> 1).getLsbD j := by
  rw [coeff_elem b _ (by omega), BitVec.getLsbD_ushiftRight]
  by_cases htop : j = 127
  · simp [htop]
  · rw [decide_eq_true (by omega), Bool.true_and, show 127 - (127 - j - 1) = 1 + j by omega]

/-- Doubling moves the coefficients up, which shifts the number right, and folds c_127 in. -/
theorem bytes_gfDouble (b : Block) : bytes (gfDouble (elem b)) =
    b >>> 1 ^^^ (if b.getLsbD 0 then 0xe1000000000000000000000000000000#128 else 0#128) := by
  apply BitVec.eq_of_getLsbD_eq
  intro j hj
  have hbit : (bytes (gfDouble (elem b))).getLsbD j = coeff (gfDouble (elem b)) (127 - j) := by
    rw [coeff_eq_bytes_getLsbD _ _ (by omega), show 127 - (127 - j) = j by omega]
  have hfold : coeff foldElem (127 - j) = (0xe1000000000000000000000000000000#128).getLsbD j := by
    rw [coeff_eq_bytes_getLsbD _ _ (by omega), bytes_foldElem, show 127 - (127 - j) = j by omega]
  rw [hbit, gfDouble_coeff _ _ (by omega), coeff_elem_pred b j hj, coeff_elem b 127 (by omega), ← foldElem, hfold,
    BitVec.getLsbD_xor]
  cases b.getLsbD 0 <;> simp

/-- In a state that meets the table invariant entry 0 is zero, whatever TV is (R18, R66). -/
theorem readTab_zero_of_consistent (h : Sys2Proof.Safety.TableConsistent s) : s.readTab 0 = gfZero := by
  obtain ⟨hinvalid, hvalid⟩ := h
  cases htv : s.tv with
  | false => exact hinvalid htv 0
  | true =>
    rw [State.readTab, hvalid htv, buildProductTable_zero]

end Sys2Proof.Machine

namespace Sys2Proof.Proofs

open Sys2Proof.Machine Sys2Proof.FieldSpec

/-- Settles O35: both products are the field product of y and H, which determines the element. -/
theorem tableMultiplyCommutes : Obligations.TableMultiplyCommutes := mulH_comm

/-- Settles O37: the loop's invariant after all the chunks. -/
theorem absorbEvaluatesByHorner : Obligations.AbsorbEvaluatesByHorner :=
  fun acc h data => absorbStep_foldl_fieldEq h acc data _

/-- Settles O38: XOR of elements is XOR of bytes. -/
theorem gfaddXorsItsSources : Obligations.GfaddXorsItsSources := by
  intro vd va vb s
  refine ⟨_, rfl, fun k _ => ?bytewise, writeElem_readV_same s vd _, onlyV_writeElem vd _ s⟩
  case bytewise =>
    rw [writeElem_readV_same, State.readElem, State.readElem, bytes_gfAdd_elem, Block.byte_xor]

/-- Settles O39: `bytes_gfDouble` at V[va]. -/
theorem gfdblDoublesItsSource : Obligations.GfdblDoublesItsSource :=
  fun vd va s => ⟨_, rfl, (writeElem_readV_same s vd _).trans (bytes_gfDouble (s.readV va)), onlyV_writeElem vd _ s⟩

/-- Settles O40: one write of the entry, which is zero at 0 by the table invariant. -/
theorem rdtabCopiesTheEntry : Obligations.RdtabCopiesTheEntry := by
  intro vd idx s
  refine ⟨_, rfl, writeElem_readV_same s vd _, onlyV_writeElem vd _ s, fun hs hidx => ?zero⟩
  case zero =>
    subst hidx
    rw [writeElem_readV_same, readTab_zero_of_consistent hs]
    rfl

/-- Settles O41: BUILDTAB on each side of its check, and the entries 8 and 0 of the table it installs. -/
theorem buildtabInstallsTheTable : Obligations.BuildtabInstallsTheTable := by
  refine fun va s => ⟨fun htv => ?installs, fun htv => execBuildtab_of_valid va htv⟩
  case installs =>
    exact ⟨_, execBuildtab_of_invalid va htv, installTable_readTab s _, buildProductTable_eight _,
      buildProductTable_zero _, rfl, onlyTable_installTable _ s⟩

/-- Settles O42: GFMULH on each side of its check; under the invariant its table is that of TAB[8], so R70 applies. -/
theorem gfmulhMultipliesByH : Obligations.GfmulhMultipliesByH := by
  refine fun vd va s => ⟨fun htv => ?multiplies, fun htv => execGfmulh_of_invalid vd va htv⟩
  case multiplies =>
    refine ⟨_, execGfmulh_of_valid vd va htv, writeElem_readV_same s vd _, onlyV_writeElem vd _ s, fun hs => ?product⟩
    case product =>
      obtain ⟨_, hvalid⟩ := hs
      rw [writeElem_readV_same, elem_bytes, hvalid htv]
      exact mulH_fieldEq _ _

/-- Settles O43: ABSORB on each side of its two checks; with n = 0 there is no chunk. -/
theorem absorbFoldsTheRange : Obligations.AbsorbFoldsTheRange := by
  intro vd rs rn s a n
  refine ⟨fun htv hin => ⟨_, execAbsorb_of_valid vd rs rn htv hin, writeElem_readV_same s vd _, fun hn => ?empty,
    onlyV_writeElem vd _ s⟩, fun htv => execAbsorb_of_invalid vd rs rn htv,
    fun htv hout => execAbsorb_of_outside vd rs rn htv hout⟩
  case empty =>
    have hnone : s.memRead (s.number rs) (s.number rn) = [] :=
      List.length_eq_zero_iff.mp ((memRead_length s _ _).trans hn)
    rw [writeElem_readV_same, hnone]
    exact bytes_elem (s.readV vd)

end Sys2Proof.Proofs
end

section
/-! PROOF. The counter commands (41_counter.md R77-R80): a counter block is twelve bytes of nonce over a 32-bit
counter, which CTRINIT sets to 1 and each increment raises by 1. -/

namespace Sys2Proof.Machine

variable {s : State}

theorem inc32_append (p : BitVec 96) (c : BitVec 32) : inc32 (p ++ c) = p ++ (c + 1#32) := by
  rw [inc32, BitVec.extractLsb'_append_eq_right, BitVec.extractLsb'_append_eq_left]

/-- Incrementing i times adds i to the counter, which wraps (R78, R80). -/
theorem inc32_iterate_append (p : BitVec 96) (c : BitVec 32) (i : Nat) :
    inc32^[i] (p ++ c) = p ++ (c + BitVec.ofNat 32 i) := by
  induction i with
  | zero => simp
  | succ i ih => rw [Function.iterate_succ_apply', ih, inc32_append, BitVec.add_assoc, BitVec.ofNat_add]

/-- Bytes 12..15 of a block are those of its counter, the most significant first. -/
theorem byte_append_counter (p : BitVec 96) (c : BitVec 32) (k : Nat) (hk : k < 4) :
    Block.byte (p ++ c) (12 + k) = c.extractLsb' (8 * (3 - k)) 8 := by
  apply BitVec.eq_of_getLsbD_eq
  intro j hj
  have hbelow : 8 * (15 - (12 + k)) + j < 32 := by omega
  have hplace : 8 * (15 - (12 + k)) + j = 8 * (3 - k) + j := by omega
  rw [Block.byte_getLsbD, BitVec.getLsbD_append, if_pos hbelow, BitVec.getLsbD_extractLsb', hplace]

theorem drop_toBytes_append (p : BitVec 96) (c : BitVec 32) : (Block.toBytes (p ++ c)).drop 12 =
    [c.extractLsb' 24 8, c.extractLsb' 16 8, c.extractLsb' 8 8, c.extractLsb' 0 8] := by
  have hdrop : (Block.toBytes (p ++ c)).drop 12 =
      (List.range 4).map fun k => Block.byte (p ++ c) (12 + k) := rfl
  rw [hdrop, List.map_congr_left fun k hk => byte_append_counter p c k (List.mem_range.mp hk)]
  rfl

/-- A block with another counter, byte by byte. -/
theorem toBytes_replaceCounter (s : Block) (c : BitVec 32) : Block.toBytes (s.extractLsb' 32 96 ++ c) =
    (Block.toBytes s).take 12 ++ [c.extractLsb' 24 8, c.extractLsb' 16 8, c.extractLsb' 8 8, c.extractLsb' 0 8] := by
  rw [← drop_toBytes_append (s.extractLsb' 32 96) c, ← Block.take_toBytes_replaceCounter s c, List.take_append_drop]

theorem number_eq_twelve_iff (s : State) (rn : SReg) : s.number rn = 12 ↔ s.readR rn = 12 :=
  BitVec.toNat_inj (y := 12#64)

theorem execCtrinit_of_twelve (vd va : VReg) {rn : SReg} (h : s.readR rn = 12) :
    execCtrinit vd va rn s = .next (s.writeV vd (initialCounter (s.readV va))) :=
  if_pos ((number_eq_twelve_iff s rn).mpr h)

theorem execCtrinit_of_not_twelve (vd va : VReg) {rn : SReg} (h : s.readR rn ≠ 12) :
    execCtrinit vd va rn s = raise .nonce (.ctrinit vd va rn) s :=
  if_neg fun h' => h ((number_eq_twelve_iff s rn).mp h')

end Sys2Proof.Machine

namespace Sys2Proof.Proofs

open Sys2Proof.Machine

/-- Settles O44: the counter 1 under the nonce, or the fault of the length check. -/
theorem ctrinitLoadsTheInitialCounter : Obligations.CtrinitLoadsTheInitialCounter := by
  refine fun vd va rn s => ⟨fun hlen => ⟨_, execCtrinit_of_twelve vd va hlen, ?loads, onlyV_writeV vd _ s⟩,
    fun hlen => execCtrinit_of_not_twelve vd va hlen⟩
  case loads =>
    rw [writeV_readV_same]
    exact toBytes_replaceCounter (s.readV va) 1#32

/-- Settles O46: one write of the incremented block, whose bytes R78 gives. -/
theorem inc32AdvancesTheCounter : Obligations.Inc32AdvancesTheCounter := by
  intro vd va s
  refine ⟨_, rfl, fun k hk => ?nonce, ?counter, onlyV_writeV vd _ s⟩
  case nonce =>
    rw [writeV_readV_same]
    exact Block.byte_replaceCounter (s.readV va) _ k hk
  case counter => rw [writeV_readV_same, beNat_drop_inc32]

/-- Settles O47: J0 has counter 1, so after i + 1 increments it is 2 + i, which the 32-bit counter wraps. -/
theorem counterScheduleStartsAtTwo : Obligations.CounterScheduleStartsAtTwo := by
  intro s i
  rw [initialCounter, inc32_iterate_append]
  refine ⟨Block.take_toBytes_replaceCounter s _, ?_⟩
  rw [beNat_drop_replaceCounter, BitVec.toNat_add, BitVec.toNat_ofNat, BitVec.toNat_ofNat]
  omega

end Sys2Proof.Proofs
end

section
/-! PROOF. The commands that compare ranges (42_keystream_xor.md R82, 43_overlap.md R87, R88): XORM's refusals, and
OVLP's result and refusal, from what the two overlap predicates say. -/

namespace Sys2Proof.Machine

variable {s : State}

/-! ## XORM's checks (R82, R97) -/

theorem execXorm_of_outside (rd ra rb rn : SReg)
    (h : s.bufSize < s.number rd + s.number rn ∨ s.bufSize < s.number ra + s.number rn ∨
      s.bufSize < s.number rb + s.number rn) : execXorm rd ra rb rn s = raise .bounds (.xorm rd ra rb rn) s := by
  obtain ⟨t, ht⟩ := goesOn_exec (.xorm rd ra rb rn) s
  rcases execXorm_cases ht with ⟨_, rfl⟩ | ⟨hin, _, _⟩ | ⟨hin, _, _⟩
  · exact ht
  · simp only [Bool.and_eq_true, admitted_iff] at hin
    omega
  · simp only [Bool.and_eq_true, admitted_iff] at hin
    omega

theorem execXorm_of_inexact (rd ra rb rn : SReg) (hd : s.number rd + s.number rn ≤ s.bufSize)
    (ha : s.number ra + s.number rn ≤ s.bufSize) (hb : s.number rb + s.number rn ≤ s.bufSize)
    (h : inexactOverlap (s.number rd) (s.number rn) (s.number ra) (s.number rn) = true ∨
      inexactOverlap (s.number rd) (s.number rn) (s.number rb) (s.number rn) = true) :
    execXorm rd ra rb rn s = raise .overlap (.xorm rd ra rb rn) s := by
  obtain ⟨t, ht⟩ := goesOn_exec (.xorm rd ra rb rn) s
  rcases execXorm_cases ht with ⟨hout, _⟩ | ⟨_, _, rfl⟩ | ⟨_, hexact, _⟩
  · simp [(admitted_iff _ _ _).mpr hd, (admitted_iff _ _ _).mpr ha, (admitted_iff _ _ _).mpr hb] at hout
  · exact ht
  · obtain ⟨hda, hdb⟩ := Bool.or_eq_false_iff.mp hexact
    simp [hda, hdb] at h

/-- Two ranges of one length that share a byte and start apart are not the same range. -/
theorem inexactOverlap_of_shared {d a n : Nat} (hne : d ≠ a)
    (h : ∃ x, (d ≤ x ∧ x < d + n) ∧ a ≤ x ∧ x < a + n) : inexactOverlap d n a n = true :=
  (inexactOverlap_iff d n a n).mpr ⟨(anyOverlap_iff_shared_byte d n a n).mpr h, fun hsame => hne hsame.1⟩

/-! ## OVLP (R87, R88) -/

theorem writeNumber_readR_same (s : State) (d : SReg) (x : Nat) : (s.writeNumber d x).readR d = BitVec.ofNat 64 x :=
  writeR_readR_same s d _

theorem execOvlp_of_valid (rd ra rla rb rlb : SReg) (h1 : s.number ra + s.number rla ≤ 2 ^ 64)
    (h2 : s.number rb + s.number rlb ≤ 2 ^ 64) : execOvlp rd ra rla rb rlb s =
      .next (s.writeNumber rd (overlapResult (s.number ra) (s.number rla) (s.number rb) (s.number rlb))) :=
  if_pos (Bool.and_eq_true_iff.mpr ⟨decide_eq_true h1, decide_eq_true h2⟩)

theorem execOvlp_of_past (rd ra rla rb rlb : SReg)
    (h : 2 ^ 64 < s.number ra + s.number rla ∨ 2 ^ 64 < s.number rb + s.number rlb) :
    execOvlp rd ra rla rb rlb s = raise .range (.ovlp rd ra rla rb rlb) s := by
  refine if_neg fun hvalid => ?_
  obtain ⟨h1, h2⟩ := Bool.and_eq_true_iff.mp hvalid
  have h1' := of_decide_eq_true h1
  have h2' := of_decide_eq_true h2
  omega

theorem overlapResult_of_disjoint {s1 l1 s2 l2 : Nat} (h : anyOverlap s1 l1 s2 l2 = false) :
    overlapResult s1 l1 s2 l2 = 0 := by
  rw [overlapResult, inexactOverlap, h, Bool.false_and]
  rfl

theorem overlapResult_of_identical {s1 l1 s2 l2 : Nat} (h : anyOverlap s1 l1 s2 l2 = true) (hs : s1 = s2 ∧ l1 = l2) :
    overlapResult s1 l1 s2 l2 = 1 := by
  rw [overlapResult, inexactOverlap, h, decide_eq_true hs]
  rfl

theorem overlapResult_of_inexact {s1 l1 s2 l2 : Nat} (h : anyOverlap s1 l1 s2 l2 = true) (hs : ¬(s1 = s2 ∧ l1 = l2)) :
    overlapResult s1 l1 s2 l2 = 3 := by
  rw [overlapResult, inexactOverlap, h, decide_eq_false hs]
  rfl

end Sys2Proof.Machine

namespace Sys2Proof.Proofs

open Sys2Proof.Machine

/-- Settles O49: each check of XORM that fails, and a shared byte of ranges that start apart is an inexact overlap. -/
theorem xormRefusesBadRanges : Obligations.XormRefusesBadRanges := by
  refine fun rd ra rb rn s => ⟨fun hout => execXorm_of_outside rd ra rb rn hout,
    fun hd ha hb halias => execXorm_of_inexact rd ra rb rn hd ha hb ?_⟩
  exact halias.imp (fun ⟨hne, hshared⟩ => inexactOverlap_of_shared hne hshared)
    fun ⟨hne, hshared⟩ => inexactOverlap_of_shared hne hshared

/-- Settles O52: OVLP on each side of its check, and the three values of its result. -/
theorem ovlpReportsTheOverlap : Obligations.OvlpReportsTheOverlap := by
  intro rd ra rla rb rlb s s1 l1 s2 l2
  refine ⟨fun h1 h2 => ⟨_, execOvlp_of_valid rd ra rla rb rlb h1 h2,
    fun hshared => ⟨fun hsame => ?one, fun hdiffer => ?three⟩, fun hnone => ?zero, onlyR_writeNumber rd _ s⟩,
    fun hpast => execOvlp_of_past rd ra rla rb rlb hpast⟩
  case one =>
    have hresult := overlapResult_of_identical ((anyOverlap_iff_shared_byte s1 l1 s2 l2).mpr hshared) hsame
    exact (writeNumber_readR_same s rd _).trans (congrArg (BitVec.ofNat 64) hresult)
  case three =>
    have hresult := overlapResult_of_inexact ((anyOverlap_iff_shared_byte s1 l1 s2 l2).mpr hshared) hdiffer
    exact (writeNumber_readR_same s rd _).trans (congrArg (BitVec.ofNat 64) hresult)
  case zero =>
    rw [← anyOverlap_iff_shared_byte, Bool.not_eq_true] at hnone
    exact (writeNumber_readR_same s rd _).trans (congrArg (BitVec.ofNat 64) (overlapResult_of_disjoint hnone))

end Sys2Proof.Proofs
end

section
/-! PROOF. The utility commands (44_utility.md R90-R92): each is one write of its result, with that write's frame, or
the fault of its check; a string of bytes written to BUF is read back. -/

namespace Sys2Proof.Machine

variable {s : State}

/-! ## REV4 (R90) -/

theorem execRev4_of_le (rd rs : SReg) (h : s.number rs ≤ 15) :
    execRev4 rd rs s = .next (s.writeNumber rd (rev4 (BitVec.ofNat 4 (s.number rs))).toNat) :=
  if_neg (Nat.not_lt_of_le h)

theorem execRev4_of_gt (rd rs : SReg) (h : 15 < s.number rs) : execRev4 rd rs s = raise .range (.rev4 rd rs) s :=
  if_pos h

/-- The reversed nibble as a 64-bit number: its four bits, and no bit above them. -/
theorem ofNat_rev4_getLsbD (m : BitVec 4) {k : Nat} (hk : k < 4) :
    (BitVec.ofNat 64 (rev4 m).toNat).getLsbD k = m.getLsbD (3 - k) := by
  rw [BitVec.getLsbD_ofNat, rev4_testBit m k hk, decide_eq_true (by omega), Bool.true_and]

theorem ofNat_rev4_le (m : BitVec 4) : (BitVec.ofNat 64 (rev4 m).toNat).toNat ≤ 15 := by
  have hlt : (rev4 m).toNat < 16 := (rev4 m).isLt
  rw [BitVec.toNat_ofNat]
  omega

/-! ## LDV and STV (R91, R92) -/

theorem byte_ofBytes_memRead (s : State) (a : Nat) {k : Nat} (hk : k < 16) :
    Block.byte (Block.ofBytes (s.memRead a 16)) k = s.readByte (a + k) := by
  rw [Block.byte_ofBytes _ (memRead_length s a 16) k (by simpa using hk), memRead_getElem]

theorem memWrite_toBytes_readByte (s : State) (a : Nat) (b : Block) {k : Nat} (hk : k < 16) :
    (s.memWrite a (Block.toBytes b)).readByte (a + k) = Block.byte b k := by
  rw [memWrite_readByte_inside s a k _ (by simpa using hk), Block.toBytes_getElem]

/-- What a string of bytes was written from is read back (20_memory.md R41). -/
theorem ofBytes_memRead_memWrite (s : State) (a : Nat) (b : Block) :
    Block.ofBytes ((s.memWrite a (Block.toBytes b)).memRead a 16) = b := by
  apply Block.ext_bytes
  intro k hk
  rw [byte_ofBytes_memRead _ a hk, memWrite_toBytes_readByte s a b hk]

end Sys2Proof.Machine

namespace Sys2Proof.Proofs

open Sys2Proof.Machine

/-- Settles O54: a number up to 15 is its low four bits, which `rev4` reverses. -/
theorem rev4CommandReversesOrFaults : Obligations.Rev4CommandReversesOrFaults := by
  refine fun rd rs s => ⟨fun hle => ⟨_, execRev4_of_le rd rs hle, fun k hk => ?bits, ?bound, onlyR_writeNumber rd _ s⟩,
    fun hgt => execRev4_of_gt rd rs hgt⟩
  case bits =>
    rw [writeNumber_readR_same, ofNat_rev4_getLsbD _ hk, BitVec.getLsbD_ofNat, State.number, BitVec.testBit_toNat,
      decide_eq_true (by omega), Bool.true_and]
  case bound =>
    rw [writeNumber_readR_same]
    exact ofNat_rev4_le _

/-- Settles O55: LDV on each side of its check, and the bytes of the string it reads. -/
theorem ldvLoadsSixteenBytes : Obligations.LdvLoadsSixteenBytes := by
  intro vd rs s a
  refine ⟨fun hin => ⟨_, execLdv_of_inside vd rs hin, fun k hk => ?bytes, onlyV_writeV vd _ s⟩,
    fun hout => execLdv_of_outside vd rs hout⟩
  case bytes =>
    rw [writeV_readV_same]
    exact byte_ofBytes_memRead s a hk

/-- Settles O56: STV on each side of its check, and the bytes of the string it writes. -/
theorem stvStoresSixteenBytes : Obligations.StvStoresSixteenBytes :=
  fun va rs s => ⟨fun hin => ⟨_, execStv_of_inside va rs hin, fun _ hk => memWrite_toBytes_readByte s _ _ hk,
    onlyBuf_memWrite _ 16 _ (Block.toBytes_length _) s⟩, fun hout => execStv_of_outside va rs hout⟩

/-- Settles O57: STV leaves R[rs] and BUF_SIZE, so LDV passes the same check and reads the string written. -/
theorem loadAfterStoreGivesItBack : Obligations.LoadAfterStoreGivesItBack := by
  intro va vd rs s hin
  refine ⟨_, _, execStv_of_inside va rs hin, execLdv_of_inside vd rs ?inside, ?readsBack⟩
  case inside =>
    rw [memWrite_number, memWrite_bufSize]
    exact hin
  case readsBack => rw [writeV_readV_same, memWrite_number, ofBytes_memRead_memWrite]

end Sys2Proof.Proofs
end

section
/-! PROOF. The pseudo-instructions (30_encoding.md R60): the commands each stands for, run one after the other, amount
to one write of a register. -/

namespace Sys2Proof.Machine

open Sys2Proof.Safety

variable {s t u : State}

theorem onlyV_refl (d : VReg) (s : State) : OnlyV d s s :=
  ⟨fun _ _ => rfl, fun _ => rfl, ⟨fun _ => rfl, rfl⟩, fun _ => rfl, ⟨rfl, rfl, rfl, rfl⟩, ⟨rfl, rfl, rfl, rfl⟩⟩

/-- The second write of a register hides the first. -/
theorem writeV_writeV (d : VReg) (b c : Block) (s : State) : (s.writeV d b).writeV d c = s.writeV d c := by
  simp [State.writeV]

theorem exec_gfadd (vd va vb : VReg) (s : State) :
    exec (.gfadd vd va vb) s = .next (s.writeV vd (s.readV va ^^^ s.readV vb)) := by
  rw [exec, execGfadd, State.writeElem, State.readElem, State.readElem, bytes_gfAdd_elem]

theorem runsTo_single {i : Instr} (h : exec i s = .next t) (hfault : t.fault = s.fault) : RunsTo [i] s t :=
  ⟨t, h, hfault, rfl⟩

theorem runsTo_pair {i j : Instr} (h : exec i s = .next t) (hfault : t.fault = s.fault) (h' : exec j t = .next u)
    (hfault' : u.fault = t.fault) : RunsTo [i, j] s u := ⟨t, h, hfault, u, h', hfault', rfl⟩

/-- CLRV: a register added to itself is zero. -/
theorem runsTo_pseudoClrv (vd : VReg) (s : State) : RunsTo (pseudoClrv vd) s (s.writeV vd 0) := by
  refine runsTo_single ?_ rfl
  rw [exec_gfadd, BitVec.xor_self]
  rfl

/-- MOVV into another register: it is cleared, and the source is added to it. -/
theorem runsTo_pseudoMovv_of_ne {vd va : VReg} (h : vd ≠ va) (s : State) :
    RunsTo (pseudoMovv vd va) s (s.writeV vd (s.readV va)) := by
  rw [pseudoMovv, if_neg h]
  refine runsTo_pair (t := s.writeV vd 0) ?clear (writeV_fault s vd 0) ?add rfl
  case clear =>
    rw [exec_gfadd, BitVec.xor_self]
    rfl
  case add =>
    have hzero : s.readV va ^^^ (0 : Block) = s.readV va := BitVec.xor_zero
    rw [exec_gfadd, writeV_readV_same, writeV_readV_ne s vd va _ (Ne.symm h), writeV_writeV, hzero]

theorem runsTo_pseudoMovv_self (va : VReg) (s : State) : RunsTo (pseudoMovv va va) s s := by
  rw [pseudoMovv, if_pos rfl]
  exact runsTo_single (exec_nop s) rfl

/-- CTRSTART: J0, incremented in place. -/
theorem runsTo_pseudoCtrstart (vd va : VReg) {rn : SReg} (h : s.readR rn = 12) :
    RunsTo (pseudoCtrstart vd va rn) s (s.writeV vd (inc32 (initialCounter (s.readV va)))) := by
  refine runsTo_pair (execCtrinit_of_twelve vd va h) (writeV_fault s vd _) ?_ (writeV_fault s vd _)
  rw [exec, execInc32, writeV_readV_same, writeV_writeV]

theorem inc32_initialCounter (b : Block) : inc32 (initialCounter b) = b.extractLsb' 32 96 ++ 2#32 := by
  rw [initialCounter, inc32_append]
  rfl

end Sys2Proof.Machine

namespace Sys2Proof.Proofs

open Sys2Proof.Machine

/-- Settles O59: CLRV adds a register to itself, MOVV adds a register to zero, CTRSTART is the first block of the
keystream's schedule. -/
theorem pseudoInstructionsExpand : Obligations.PseudoInstructionsExpand := by
  refine ⟨fun vd s => ⟨_, runsTo_pseudoClrv vd s, writeV_readV_same s vd 0, onlyV_writeV vd 0 s⟩,
    fun vd va s => ?movv, fun vd va rn s hlen => ⟨_, runsTo_pseudoCtrstart vd va hlen, ?counter, onlyV_writeV vd _ s⟩⟩
  case movv =>
    by_cases hsame : vd = va
    · subst hsame
      exact ⟨s, runsTo_pseudoMovv_self vd s, rfl, onlyV_refl vd s⟩
    · exact ⟨_, runsTo_pseudoMovv_of_ne hsame s, writeV_readV_same s vd _, onlyV_writeV vd _ s⟩
  case counter =>
    rw [writeV_readV_same, inc32_initialCounter]
    exact toBytes_replaceCounter (s.readV va) 2#32

end Sys2Proof.Proofs
end
